-- ==== Sys2Proof/Word.lean ====
section
/-! DEFINITION. The word types of the CORE (spec/00_scope.md R4, R6) and their plainest arithmetic. -/

namespace Sys2Proof

/-- A byte: a memory cell, a register `V[i]`, a timer, an immediate `kk` (00_scope.md R4). -/
abbrev Byte := BitVec 8

/-- A 16-bit quantity: an instruction word, `pc`, `I`, a stack entry (00_scope.md R4). -/
abbrev Word := BitVec 16

/-- A 4-bit field: a register index `x`, `y`, or the count `n` (30_encoding.md R91). -/
abbrev Nibble := BitVec 4

/-- The 12-bit field `nnn` (30_encoding.md R91). -/
abbrev Addr12 := BitVec 12

/-- `bool(c)` of 00_scope.md R7 as a byte: 1 if `c` holds, else 0. -/
def boolByte (c : Bool) : Byte := if c then 1 else 0

end Sys2Proof
end

