-- ==== Sys2Proof/WellFormed.lean ====
section
/-! DEFINITION. Which instruction terms stand for a word. Every operand fits its field by its type; the one condition
left is that of row 3 of spec/30_encoding.md R95. -/

namespace Sys2Proof

/-- `0nnn` is the no-op only for `nnn` other than 0x0E0 and 0x0EE, whose words are `00E0` and `00EE` (30_encoding.md
R95, row 3 and R97). Every other term is well formed. -/
def Instr.wellFormed : Instr → Bool
  | .sys nnn => nnn != 0x0E0#12 && nnn != 0x0EE#12
  | .cls | .ret | .jp _ | .call _ | .seImm _ _ | .sneImm _ _ | .seReg _ _ | .ldImm _ _ | .addImm _ _ | .ldReg _ _
  | .orReg _ _ | .andReg _ _ | .xorReg _ _ | .addReg _ _ | .subReg _ _ | .shr _ _ | .subn _ _ | .shl _ _
  | .sneReg _ _ | .ldI _ | .jpV0 _ | .rnd _ _ | .drw _ _ _ | .skp _ | .sknp _ | .ldFromDt _ | .ldKey _ | .ldDt _
  | .ldSt _ | .addI _ | .ldGlyph _ | .bcd _ | .store _ | .load _ => true

end Sys2Proof
end

