-- ==== Sys2Proof/Decode.lean ====
section
/-! DEFINITION. The decoder (spec/30_encoding.md R91, R94 to R98), total on any bytes, and after it the encoder from the
same rows. Decoding is a pure function of the word (spec/40_step_and_host_ops.md R123). -/

namespace Sys2Proof

/-- `op = op16[15:12]` (30_encoding.md R91). -/
def fieldOp (w : Word) : Nibble := w.extractLsb' 12 4

/-- `x = op16[11:8]`. -/
def fieldX (w : Word) : Nibble := w.extractLsb' 8 4

/-- `y = op16[7:4]`. -/
def fieldY (w : Word) : Nibble := w.extractLsb' 4 4

/-- `n = op16[3:0]`. -/
def fieldN (w : Word) : Nibble := w.extractLsb' 0 4

/-- `kk = op16[7:0]`. -/
def fieldKk (w : Word) : Byte := w.extractLsb' 0 8

/-- `nnn = op16[11:0]`. -/
def fieldNnn (w : Word) : Addr12 := w.extractLsb' 0 12

/-- Group 0: the sub-discriminant is the whole `nnn`; `00E0` and `00EE` are tested before the no-op (R94, R95). -/
def decodeGroup0 (w : Word) : Option Instr :=
  if fieldNnn w = 0x0E0#12 then some .cls
  else if fieldNnn w = 0x0EE#12 then some .ret
  else some (.sys (fieldNnn w))

/-- Group 5: the sub-discriminant is `n`, and only 0 is defined (R94). -/
def decodeGroup5 (w : Word) : Option Instr :=
  if fieldN w = 0x0#4 then some (.seReg (fieldX w) (fieldY w)) else none

/-- Group 8: the sub-discriminant is `n` (R94); the rest is undefined (R96). -/
def decodeGroup8 (w : Word) : Option Instr :=
  if fieldN w = 0x0#4 then some (.ldReg (fieldX w) (fieldY w))
  else if fieldN w = 0x1#4 then some (.orReg (fieldX w) (fieldY w))
  else if fieldN w = 0x2#4 then some (.andReg (fieldX w) (fieldY w))
  else if fieldN w = 0x3#4 then some (.xorReg (fieldX w) (fieldY w))
  else if fieldN w = 0x4#4 then some (.addReg (fieldX w) (fieldY w))
  else if fieldN w = 0x5#4 then some (.subReg (fieldX w) (fieldY w))
  else if fieldN w = 0x6#4 then some (.shr (fieldX w) (fieldY w))
  else if fieldN w = 0x7#4 then some (.subn (fieldX w) (fieldY w))
  else if fieldN w = 0xE#4 then some (.shl (fieldX w) (fieldY w))
  else none

/-- Group 9: the sub-discriminant is `n`, and only 0 is defined (R96, 90_conflicts.md C3; log 19). -/
def decodeGroup9 (w : Word) : Option Instr :=
  if fieldN w = 0x0#4 then some (.sneReg (fieldX w) (fieldY w)) else none

/-- Group E: the sub-discriminant is `kk` (R94; log 19). -/
def decodeGroupE (w : Word) : Option Instr :=
  if fieldKk w = 0x9E#8 then some (.skp (fieldX w))
  else if fieldKk w = 0xA1#8 then some (.sknp (fieldX w))
  else none

/-- Group F: the sub-discriminant is `kk` (R94; log 19). -/
def decodeGroupF (w : Word) : Option Instr :=
  if fieldKk w = 0x07#8 then some (.ldFromDt (fieldX w))
  else if fieldKk w = 0x0A#8 then some (.ldKey (fieldX w))
  else if fieldKk w = 0x15#8 then some (.ldDt (fieldX w))
  else if fieldKk w = 0x18#8 then some (.ldSt (fieldX w))
  else if fieldKk w = 0x1E#8 then some (.addI (fieldX w))
  else if fieldKk w = 0x29#8 then some (.ldGlyph (fieldX w))
  else if fieldKk w = 0x33#8 then some (.bcd (fieldX w))
  else if fieldKk w = 0x55#8 then some (.store (fieldX w))
  else if fieldKk w = 0x65#8 then some (.load (fieldX w))
  else none

/-- `Decode(op16)`: dispatch by the high nibble (R94). `none` is `Undefined` (R96, R102). -/
def decodeWord (w : Word) : Option Instr :=
  if fieldOp w = 0x0#4 then decodeGroup0 w
  else if fieldOp w = 0x1#4 then some (.jp (fieldNnn w))
  else if fieldOp w = 0x2#4 then some (.call (fieldNnn w))
  else if fieldOp w = 0x3#4 then some (.seImm (fieldX w) (fieldKk w))
  else if fieldOp w = 0x4#4 then some (.sneImm (fieldX w) (fieldKk w))
  else if fieldOp w = 0x5#4 then decodeGroup5 w
  else if fieldOp w = 0x6#4 then some (.ldImm (fieldX w) (fieldKk w))
  else if fieldOp w = 0x7#4 then some (.addImm (fieldX w) (fieldKk w))
  else if fieldOp w = 0x8#4 then decodeGroup8 w
  else if fieldOp w = 0x9#4 then decodeGroup9 w
  else if fieldOp w = 0xA#4 then some (.ldI (fieldNnn w))
  else if fieldOp w = 0xB#4 then some (.jpV0 (fieldNnn w))
  else if fieldOp w = 0xC#4 then some (.rnd (fieldX w) (fieldKk w))
  else if fieldOp w = 0xD#4 then some (.drw (fieldX w) (fieldY w) (fieldN w))
  else if fieldOp w = 0xE#4 then decodeGroupE w
  else decodeGroupF w

/-- `hi ++ lo`: the byte at the lower address is bits 15..8 (20_memory.md R65). -/
def composeWord (hi lo : Byte) : Word := hi ++ lo

/-- The high byte of a word, stored at the lower address (30_encoding.md R90). -/
def highByte (w : Word) : Byte := w.extractLsb' 8 8

/-- The low byte of a word. -/
def lowByte (w : Word) : Byte := w.extractLsb' 0 8

/-- Decoding a byte sequence: the instruction its first two bytes stand for and the bytes after it (30_encoding.md R90:
every instruction is two bytes). `none` for an undefined word or fewer than two bytes. -/
def decode : List Byte → Option (Instr × List Byte)
  | hi :: lo :: rest => (decodeWord (composeWord hi lo)).map fun i => (i, rest)
  | [_] => none
  | [] => none

/-- The instruction the decoder reads from the word `w` of `nbits` bits, bit 0 its least significant bit (the host's
numbering): the word is laid out as two bytes, high byte first, and decoded. -/
def decodeTableWord (nbits w : Nat) : Option Instr :=
  let word := BitVec.ofNat 16 (w % 2 ^ nbits)
  (decode [highByte word, lowByte word]).map Prod.fst

/-- The word of an instruction, from the rows of 30_encoding.md R95 and the formats of R92. -/
def encodeWord : Instr → Word
  | .cls => 0x00E0#16
  | .ret => 0x00EE#16
  | .sys nnn => 0x0#4 ++ nnn
  | .jp nnn => 0x1#4 ++ nnn
  | .call nnn => 0x2#4 ++ nnn
  | .seImm x kk => 0x3#4 ++ x ++ kk
  | .sneImm x kk => 0x4#4 ++ x ++ kk
  | .seReg x y => 0x5#4 ++ x ++ y ++ 0x0#4
  | .ldImm x kk => 0x6#4 ++ x ++ kk
  | .addImm x kk => 0x7#4 ++ x ++ kk
  | .ldReg x y => 0x8#4 ++ x ++ y ++ 0x0#4
  | .orReg x y => 0x8#4 ++ x ++ y ++ 0x1#4
  | .andReg x y => 0x8#4 ++ x ++ y ++ 0x2#4
  | .xorReg x y => 0x8#4 ++ x ++ y ++ 0x3#4
  | .addReg x y => 0x8#4 ++ x ++ y ++ 0x4#4
  | .subReg x y => 0x8#4 ++ x ++ y ++ 0x5#4
  | .shr x y => 0x8#4 ++ x ++ y ++ 0x6#4
  | .subn x y => 0x8#4 ++ x ++ y ++ 0x7#4
  | .shl x y => 0x8#4 ++ x ++ y ++ 0xE#4
  | .sneReg x y => 0x9#4 ++ x ++ y ++ 0x0#4
  | .ldI nnn => 0xA#4 ++ nnn
  | .jpV0 nnn => 0xB#4 ++ nnn
  | .rnd x kk => 0xC#4 ++ x ++ kk
  | .drw x y n => 0xD#4 ++ x ++ y ++ n
  | .skp x => 0xE#4 ++ x ++ 0x9E#8
  | .sknp x => 0xE#4 ++ x ++ 0xA1#8
  | .ldFromDt x => 0xF#4 ++ x ++ 0x07#8
  | .ldKey x => 0xF#4 ++ x ++ 0x0A#8
  | .ldDt x => 0xF#4 ++ x ++ 0x15#8
  | .ldSt x => 0xF#4 ++ x ++ 0x18#8
  | .addI x => 0xF#4 ++ x ++ 0x1E#8
  | .ldGlyph x => 0xF#4 ++ x ++ 0x29#8
  | .bcd x => 0xF#4 ++ x ++ 0x33#8
  | .store x => 0xF#4 ++ x ++ 0x55#8
  | .load x => 0xF#4 ++ x ++ 0x65#8

/-- The two bytes of an instruction, high byte at the lower address (30_encoding.md R90). -/
def encode (i : Instr) : List Byte := [highByte (encodeWord i), lowByte (encodeWord i)]

/-- A row of the opcode map: a word `w` matches iff `(w AND mask) = pattern` (30_encoding.md R95). -/
structure OpcodeRow where
  mask : Word
  pattern : Word
deriving DecidableEq, Repr

/-- The row of 30_encoding.md R95 an instruction belongs to. -/
def opcodeRow : Instr → OpcodeRow
  | .cls => ⟨0xFFFF#16, 0x00E0#16⟩
  | .ret => ⟨0xFFFF#16, 0x00EE#16⟩
  | .sys _ => ⟨0xF000#16, 0x0000#16⟩
  | .jp _ => ⟨0xF000#16, 0x1000#16⟩
  | .call _ => ⟨0xF000#16, 0x2000#16⟩
  | .seImm _ _ => ⟨0xF000#16, 0x3000#16⟩
  | .sneImm _ _ => ⟨0xF000#16, 0x4000#16⟩
  | .seReg _ _ => ⟨0xF00F#16, 0x5000#16⟩
  | .ldImm _ _ => ⟨0xF000#16, 0x6000#16⟩
  | .addImm _ _ => ⟨0xF000#16, 0x7000#16⟩
  | .ldReg _ _ => ⟨0xF00F#16, 0x8000#16⟩
  | .orReg _ _ => ⟨0xF00F#16, 0x8001#16⟩
  | .andReg _ _ => ⟨0xF00F#16, 0x8002#16⟩
  | .xorReg _ _ => ⟨0xF00F#16, 0x8003#16⟩
  | .addReg _ _ => ⟨0xF00F#16, 0x8004#16⟩
  | .subReg _ _ => ⟨0xF00F#16, 0x8005#16⟩
  | .shr _ _ => ⟨0xF00F#16, 0x8006#16⟩
  | .subn _ _ => ⟨0xF00F#16, 0x8007#16⟩
  | .shl _ _ => ⟨0xF00F#16, 0x800E#16⟩
  | .sneReg _ _ => ⟨0xF00F#16, 0x9000#16⟩
  | .ldI _ => ⟨0xF000#16, 0xA000#16⟩
  | .jpV0 _ => ⟨0xF000#16, 0xB000#16⟩
  | .rnd _ _ => ⟨0xF000#16, 0xC000#16⟩
  | .drw _ _ _ => ⟨0xF000#16, 0xD000#16⟩
  | .skp _ => ⟨0xF0FF#16, 0xE09E#16⟩
  | .sknp _ => ⟨0xF0FF#16, 0xE0A1#16⟩
  | .ldFromDt _ => ⟨0xF0FF#16, 0xF007#16⟩
  | .ldKey _ => ⟨0xF0FF#16, 0xF00A#16⟩
  | .ldDt _ => ⟨0xF0FF#16, 0xF015#16⟩
  | .ldSt _ => ⟨0xF0FF#16, 0xF018#16⟩
  | .addI _ => ⟨0xF0FF#16, 0xF01E#16⟩
  | .ldGlyph _ => ⟨0xF0FF#16, 0xF029#16⟩
  | .bcd _ => ⟨0xF0FF#16, 0xF033#16⟩
  | .store _ => ⟨0xF0FF#16, 0xF055#16⟩
  | .load _ => ⟨0xF0FF#16, 0xF065#16⟩

end Sys2Proof
end

