-- ==== Sys2Proof/Config.lean ====
section
/-! DEFINITION. What is fixed for a machine: the constants of spec/00_scope.md R4, and the free values the spec
leaves open, as constants with no body. -/

namespace Sys2Proof.Config

/-- Bytes of Memory, addresses 0..4095 (00_scope.md R4). -/
def memSize : Nat := 4096

/-- Load address and initial `pc` (00_scope.md R4). -/
def progBase : Nat := 512

/-- Longest program LOAD takes, 4096 − 512 (00_scope.md R4). -/
def maxProgLen : Nat := 3584

/-- Columns of the framebuffer (00_scope.md R4). -/
def fbWidth : Nat := 64

/-- Rows of the framebuffer (00_scope.md R4). -/
def fbHeight : Nat := 32

/-- `VF_WRITE_ORDER` of 00_scope.md R5: which of the two writes of `8xy4`, `8xy5`, `8xy6`, `8xy7`, `8xyE` comes
first. The value the machine has is `Machine.vfWriteOrder` (log 6). -/
inductive VfWriteOrder where
  /-- The flag is written first, so with `x = 0xF` the result remains (42_alu.md R171). -/
  | flagThenResult
  /-- The result is written first, so with `x = 0xF` the flag remains (the reading 90_conflicts.md C1 sets aside). -/
  | resultThenFlag
deriving DecidableEq, Repr

/-- FREE VALUE (log 8): the byte `rnd` of the n-th draw, 40_step_and_host_ops.md R133 and 42_alu.md R183. It has no
body: nothing can be proved of it, so a claim holds for every byte. -/
opaque randomByte : Nat → Byte

/-- FREE VALUE (log 11): what the n-th fatal condition leaves in the k-th piece of state, 60_exceptions.md R268
("the whole state other than `RUN` UNSPECIFIED after a fatal condition"). It has no body. -/
opaque afterFatal : Nat → Nat → Nat

end Sys2Proof.Config
end

