-- ==== Sys2Proof/Machine/State.lean ====
section
/-! DEFINITION. The state of the CORE (spec/10_state.md R20 to R37), its fatal causes and the model's refusals, and the
state after reset. Plain data only. -/

namespace Sys2Proof.Machine

/-- Why STEP ends a run: the causes of 60_exceptions.md R260 and R266 with the values they record (R261). Each is a
fault of the spec's own, so stopping on it is safe. -/
inductive Fault where
  /-- `DecodeError(op16)`: raised by STEP when the fetched word is undefined (R262). Safe: the source's fatal condition. -/
  | decodeError (op16 : Word)
  /-- `StackOverflow`: raised by `2nnn` when SP = 16 (R263). Safe: the source's fatal condition. -/
  | stackOverflow
  /-- `StackUnderflow`: raised by `00EE` when SP = 0 (R264). Safe: the source's fatal condition. -/
  | stackUnderflow
  /-- `MemoryOutOfRange(addr)`: raised by fetch, `Dxyn`, `Fx33`, `Fx55`, `Fx65` at the first address above 4095
  (R265). Safe: the source's fatal condition. -/
  | memoryOutOfRange (addr : Nat)
  /-- `UndefinedIOverflow`: raised by `Fx1E`, and in principle by the LEGACY_SL increment, when I would exceed 65535
  (R266, 43_index_memory.md R206). Safe: the spec errs toward unprovable here (log 9). -/
  | undefinedIOverflow
  /-- `UndefinedKeyIndex(k)`: raised by `Ex9E` and `ExA1` when `V[x]` is above 15 (R266, 45_keypad_timer.md R240).
  Safe: the spec errs toward unprovable here (log 10). -/
  | undefinedKeyIndex (k : Byte)
deriving DecidableEq, Repr

/-- Why the model refuses. `notModelled` belongs to exec's arms; the others answer host calls that are no operation of
this hardware (40_step_and_host_ops.md R126, R135) and are safe. -/
inductive Refusal where
  /-- An instruction with no meaning yet; raised by exec's arm. Safe. No arm uses it. -/
  | notModelled (mnemonic : String)
  /-- `KEY(k, ..)` with `k` above 15: raised by `perform` (R135, log 12). Safe. -/
  | keyOutsideDomain (k : Nat)
  /-- `PIXEL(x, y)` with `x` above 63 or `y` above 31: raised by `perform` (R135, log 12). Safe. -/
  | pixelOutsideDomain (x y : Nat)
  /-- LOAD, TICK, KEY or PIXEL after a fatal condition: raised by `perform` (R126, log 12). Safe. -/
  | operationAfterFatal
deriving DecidableEq, Repr

/-- `RUN`, the Interpreter's sub-state (10_state.md R32). -/
inductive Run where
  /-- STEP fetches and executes. -/
  | running
  /-- `Fx0A` has been executed and the machine waits for a key press to put into `V[x]`. -/
  | awaitingKey (x : Nibble)
  /-- A fatal condition was met; never left but by RESET. -/
  | faulted (cause : Fault)
deriving DecidableEq, Repr

/-- MEM as (address, byte) pairs in one canonical form, `Memory.wf` (20_memory.md R60). -/
abbrev Memory := List Host.Cell

/-- FB, row by row: `FB[y][x]` (10_state.md R30). -/
abbrev Framebuffer := Vector (Vector Bool 64) 32

/-- The complete state (10_state.md R20), and one field of the model's own, `draws`. -/
structure State where
  /-- `V[0..15]`; `V[15]` is VF (R21, R22). -/
  v : Vector Byte 16
  /-- `I`, the address register (R23). -/
  i : Word
  /-- `DT`, the delay timer (R24). -/
  dt : Byte
  /-- `ST`, the sound timer (R25). -/
  st : Byte
  /-- `pc` (R26). -/
  pc : Word
  /-- `STACK[0..15]` (R27). -/
  stack : Vector Word 16
  /-- `SP`, how many entries of the stack are live, 0..16 (R27). -/
  sp : Fin 17
  /-- `MEM[0..4095]` (R28, R29). -/
  mem : Memory
  /-- `FB[0..31][0..63]` (R30). -/
  fb : Framebuffer
  /-- `KEYS[0..15]` (R31). -/
  keys : Vector Bool 16
  /-- `RUN` (R32). -/
  run : Run
  /-- `LEGACY_SL` (R33). -/
  legacySl : Bool
  /-- `LEGACY_SHIFT` (R33). -/
  legacyShift : Bool
  /-- The MODEL'S own: how many free values have been drawn (40_step_and_host_ops.md R133, log 8). -/
  draws : Nat
deriving DecidableEq, Repr

/-- Every pixel off. -/
def blankFramebuffer : Framebuffer := Vector.replicate 32 (Vector.replicate 64 false)

/-- The state after reset (10_state.md R36): `pc` and the empty stack as the source says, the zeros by the spec's
decision D2 (log 1, log 2), the dead stack entries 0 (log 4), both legacy flags clear (log 5) and the default glyph
table, which is what unlisted memory reads as (log 3). `State.construct` is RESET with any flags and any glyphs. -/
def State.reset : State where
  v := Vector.replicate 16 0
  i := 0
  dt := 0
  st := 0
  pc := BitVec.ofNat 16 Config.progBase
  stack := Vector.replicate 16 0
  sp := 0
  mem := []
  fb := blankFramebuffer
  keys := Vector.replicate 16 false
  run := .running
  legacySl := false
  legacyShift := false
  draws := 0

end Sys2Proof.Machine
end

