-- ==== Sys2Proof/Machine/Memory.lean ====
section
/-! DEFINITION. Memory: what an unlisted address reads as, the canonical form, reading and writing one byte, and the two
checked primitives and their ascending sequences (spec/20_memory.md R60 to R68, R75). -/

namespace Sys2Proof.Machine

/-- The default of the parameter GLYPHS, 16 glyphs of 5 bytes, glyph `d` at `d * 5` (10_state.md R29; PRESUMED, the
spec gives the bytes from general knowledge, log 3). -/
def defaultGlyphs : List Byte :=
  ([0xF0, 0x90, 0x90, 0x90, 0xF0] ++ [0x20, 0x60, 0x20, 0x20, 0x70] ++
   [0xF0, 0x10, 0xF0, 0x80, 0xF0] ++ [0xF0, 0x10, 0xF0, 0x10, 0xF0]) ++
  ([0x90, 0x90, 0xF0, 0x10, 0x10] ++ [0xF0, 0x80, 0xF0, 0x10, 0xF0] ++
   [0xF0, 0x80, 0xF0, 0x90, 0xF0] ++ [0xF0, 0x10, 0x20, 0x40, 0x40]) ++
  ([0xF0, 0x90, 0xF0, 0x90, 0xF0] ++ [0xF0, 0x90, 0xF0, 0x10, 0xF0] ++
   [0xF0, 0x90, 0xF0, 0x90, 0x90] ++ [0xE0, 0x90, 0xE0, 0x90, 0xE0]) ++
  ([0xF0, 0x80, 0x80, 0x80, 0xF0] ++ [0xE0, 0x90, 0x90, 0x90, 0xE0] ++
   [0xF0, 0x80, 0xF0, 0x80, 0xF0] ++ [0xF0, 0x80, 0xF0, 0x80, 0x80])

/-- What an unlisted address reads as: the reset contents at the default glyph table (10_state.md R36: GLYPHS at 0..79,
0x00 above by decision D2; log 2, log 3). -/
def Memory.background (addr : Nat) : Byte := defaultGlyphs[addr]?.getD 0

/-- The byte at an address: the listed one, or the background. -/
def Memory.read : Memory → Nat → Byte
  | [], a => Memory.background a
  | (b, v) :: m, a => if a = b then v else Memory.read m a

/-- Storing a byte and keeping the canonical form: cells stay sorted, and a byte equal to the background is not listed. -/
def Memory.write : Memory → Nat → Byte → Memory
  | [], a, v => if v = Memory.background a then [] else [(a, v)]
  | (b, w) :: m, a, v =>
    if a < b then (if v = Memory.background a then (b, w) :: m else (a, v) :: (b, w) :: m)
    else if a = b then (if v = Memory.background a then m else (a, v) :: m)
    else (b, w) :: Memory.write m a v

/-- The canonical form of the cells at addresses `lo` and above: strictly rising, below 4096, none equal to the
background. -/
def Memory.wfFrom : Nat → Memory → Bool
  | _, [] => true
  | lo, (a, v) :: m => decide (lo ≤ a) && decide (a < Config.memSize) && v != Memory.background a && Memory.wfFrom (a + 1) m

/-- The canonical form of a memory. -/
def Memory.wf (m : Memory) : Bool := Memory.wfFrom 0 m

/-- Storing bytes at consecutive addresses, with no range check. -/
def Memory.writeAll : Memory → Nat → List Byte → Memory
  | m, _, [] => m
  | m, a, v :: vs => Memory.writeAll (m.write a v) (a + 1) vs

/-- `MemRead(addr, 1)` (20_memory.md R61). -/
def memRead (m : Memory) (addr : Nat) : Except Fault Byte :=
  if addr < Config.memSize then .ok (m.read addr) else .error (.memoryOutOfRange addr)

/-- `MemWrite(addr, 1, v)` (20_memory.md R62). -/
def memWrite (m : Memory) (addr : Nat) (v : Byte) : Except Fault Memory :=
  if addr < Config.memSize then .ok (m.write addr v) else .error (.memoryOutOfRange addr)

/-- The bytes at `addr, addr + 1, .., addr + n - 1`, read in ascending order (20_memory.md R68). -/
def readBytes (m : Memory) : Nat → Nat → Except Fault (List Byte)
  | _, 0 => .ok []
  | addr, n + 1 => do
    let b ← memRead m addr
    let bs ← readBytes m (addr + 1) n
    return b :: bs

/-- Storing the bytes at `addr, addr + 1, ..`, in ascending order (20_memory.md R68). -/
def writeBytes : Memory → Nat → List Byte → Except Fault Memory
  | m, _, [] => .ok m
  | m, addr, v :: vs => do
    let m' ← memWrite m addr v
    writeBytes m' (addr + 1) vs

/-- The memory whose byte at each address of MEM is `f` of it. -/
def Memory.ofFn (f : Nat → Byte) : Memory :=
  (List.range Config.memSize).filterMap fun a => if f a = Memory.background a then none else some (a, f a)

end Sys2Proof.Machine
end

