-- ==== Sys2Proof/Machine/Ops.lean ====
section
/-! DEFINITION. The named operations over registers, pc, call stack, `I`, free draws and fatal conditions that the
meanings are written over (spec/00_scope.md R8). -/

namespace Sys2Proof.Machine

/-- `V[x]` (10_state.md R21). -/
def State.readV (s : State) (x : Nibble) : Byte := s.v[x.toNat]'x.isLt

/-- `V[x] <- b`. -/
def State.setV (s : State) (x : Nibble) (b : Byte) : State := { s with v := s.v.set x.toNat b x.isLt }

/-- `I <- w` (10_state.md R23). -/
def State.setI (s : State) (w : Word) : State := { s with i := w }

/-- `DT <- b` (10_state.md R24). -/
def State.setDt (s : State) (b : Byte) : State := { s with dt := b }

/-- `ST <- b` (10_state.md R25). -/
def State.setSt (s : State) (b : Byte) : State := { s with st := b }

/-- `pc <- w` (10_state.md R26). -/
def State.setPc (s : State) (w : Word) : State := { s with pc := w }

/-- The call stack with new entries and count (10_state.md R27). -/
def State.setStack (s : State) (entries : Vector Word 16) (count : Fin 17) : State :=
  { s with stack := entries, sp := count }

/-- MEM replaced (10_state.md R28). -/
def State.setMem (s : State) (m : Memory) : State := { s with mem := m }

/-- FB replaced (10_state.md R30). -/
def State.setFb (s : State) (fb : Framebuffer) : State := { s with fb := fb }

/-- `KEYS[k] <- pressed` (10_state.md R31). -/
def State.setKey (s : State) (k : Nibble) (pressed : Bool) : State :=
  { s with keys := s.keys.set k.toNat pressed k.isLt }

/-- `RUN <- r` (10_state.md R32). -/
def State.setRun (s : State) (r : Run) : State := { s with run := r }

/-- One more free value taken (log 8). -/
def State.countDraw (s : State) : State := { s with draws := s.draws + 1 }

/-- A register file whose first registers are the bytes of a list, the others kept. -/
def overwritePrefix (v : Vector Byte 16) (bytes : List Byte) : Vector Byte 16 :=
  Vector.ofFn fun k : Fin 16 => bytes[k.val]?.getD v[k]

/-- `V[0..n-1]` replaced by the first `n` bytes of a list, the others kept (43_index_memory.md R205). -/
def State.setVPrefix (s : State) (bytes : List Byte) : State := { s with v := overwritePrefix s.v bytes }

/-- `KEYS[k]` (10_state.md R31). -/
def State.key (s : State) (k : Nibble) : Bool := s.keys[k.toNat]'k.isLt

/-- The byte at an address of MEM. -/
def State.byteAt (s : State) (addr : Nat) : Byte := s.mem.read addr

/-- `pc <- pc0 + 2` (10_state.md R26, arithmetic modulo 2^16). -/
def State.advance (s : State) : State := s.setPc (s.pc + 2)

/-- "Skip next instruction" if the condition holds: `pc <- pc0 + 4`, else `pc <- pc0 + 2` (41_flow.md R150). -/
def State.skipIf (s : State) (c : Bool) : State := if c then s.setPc (s.pc + 4) else s.advance

/-- `raise <Cause>`: the STEP answers `Fatal(cause)` and no later line runs (60_exceptions.md R268). There is no saved
register, no vector and no handler; what the machine then holds is `enterFaulted`. -/
def raise (c : Fault) : Host.Outcome State Fault Refusal := .fault c

/-- The outcome of pseudocode that may raise: the next state, or the fatal condition. -/
def settle : Except Fault State → Host.Outcome State Fault Refusal
  | .ok s => .next s
  | .error c => raise c

/-- The state a fatal condition leaves: `RUN <- Faulted(cause)`, the configuration flags as they were (10_state.md
R33), and everything else unspecified (60_exceptions.md R268), that is free values (log 11). -/
def enterFaulted (c : Fault) (s : State) : State :=
  let u := Config.afterFatal s.draws
  { v := Vector.ofFn fun k : Fin 16 => BitVec.ofNat 8 (u k)
    i := BitVec.ofNat 16 (u 16)
    dt := BitVec.ofNat 8 (u 17)
    st := BitVec.ofNat 8 (u 18)
    pc := BitVec.ofNat 16 (u 19)
    stack := Vector.ofFn fun k : Fin 16 => BitVec.ofNat 16 (u (20 + k))
    sp := Fin.ofNat 17 (u 36)
    mem := Memory.ofFn fun a => BitVec.ofNat 8 (u (1000 + a))
    fb := Vector.ofFn fun y : Fin 32 => Vector.ofFn fun x : Fin 64 => u (10000 + 64 * y + x) % 2 == 1
    keys := Vector.ofFn fun k : Fin 16 => u (100 + k) % 2 == 1
    run := .faulted c
    legacySl := s.legacySl
    legacyShift := s.legacyShift
    draws := s.draws + 1 }

/-- `Push(a)` (41_flow.md R151). -/
def push (s : State) (a : Word) : Except Fault State :=
  if h : s.sp.val < 16 then .ok (s.setStack (s.stack.set s.sp.val a h) ⟨s.sp.val + 1, by omega⟩)
  else .error .stackOverflow

/-- `Pop()`: the popped entry and the state with one live entry fewer (41_flow.md R152). -/
def pop (s : State) : Except Fault (Word × State) :=
  if h : 0 < s.sp.val then
    .ok (s.stack[s.sp.val - 1]'(by omega), s.setStack s.stack ⟨s.sp.val - 1, by omega⟩)
  else .error .stackUnderflow

/-- `I <- I + d`, exact; a sum above 65535 raises (43_index_memory.md R201, R206; log 9). -/
def addToI (s : State) (d : Nat) : Except Fault State :=
  if s.i.toNat + d ≤ 65535 then .ok (s.setI (BitVec.ofNat 16 (s.i.toNat + d))) else .error .undefinedIOverflow

/-- `if LEGACY_SL then I <- I + x + 1` (43_index_memory.md R204, R205). -/
def legacyAdvanceI (s : State) (x : Nibble) : Except Fault State :=
  if s.legacySl then addToI s (x.toNat + 1) else .ok s

/-- One draw of the free byte `rnd` (40_step_and_host_ops.md R133; log 8): the byte, and the state with the draw
counted. -/
def drawByte (s : State) : Byte × State := (Config.randomByte s.draws, s.countDraw)

/-- Instruction fetch: the byte at `pc` first, then the byte at `pc + 1`, composed big-endian
(40_step_and_host_ops.md R122, 20_memory.md R65). -/
def fetch (s : State) : Except Fault Word := do
  let hi ← memRead s.mem s.pc.toNat
  let lo ← memRead s.mem (s.pc.toNat + 1)
  return hi ++ lo

end Sys2Proof.Machine
end

