-- ==== Sys2Proof/Machine/Operands.lean ====
section
/-! DEFINITION. The operand forms the spec gives (spec/30_encoding.md R91 to R93, spec/20_memory.md R75). Register
operands are `State.readV`; `kk` and `n` are used as they stand. -/

namespace Sys2Proof.Machine

/-- `zext_16(nnn)`: the 12-bit immediate widened with zeros (30_encoding.md R93). -/
def zextAddr (nnn : Addr12) : Word := nnn.setWidth 16

/-- `zext_16(b)`: a byte widened with zeros (00_scope.md R7). -/
def zextByte (b : Byte) : Word := b.setWidth 16

/-- The effective address `I + k`, exact, never wrapped (20_memory.md R75). -/
abbrev effAddr (s : State) (k : Nat) : Nat := s.i.toNat + k

/-- The operand of `8xy6` and `8xyE`: `V[y]` if LEGACY_SHIFT, else `V[x]` (42_alu.md R180, R182). -/
def shiftSource (s : State) (x y : Nibble) : Byte := if s.legacyShift then s.readV y else s.readV x

/-- `V[0], V[1], .., V[x]` (43_index_memory.md R204). -/
def regsUpTo (s : State) (x : Nibble) : List Byte := s.v.toList.take (x.toNat + 1)

/-- The three decimal digits of a byte, hundreds, tens, ones (43_index_memory.md R203). -/
def decimalDigits (b : Byte) : List Byte := [b / 100, b / 10 % 10, b % 10]

end Sys2Proof.Machine
end

