-- ==== Sys2Proof/Machine/Flags.lean ====
section
/-! DEFINITION. Every flag the spec computes into VF (spec/10_state.md R22), and the order of the flag write and the
result write (spec/42_alu.md R171). -/

namespace Sys2Proof.Machine

/-- Register index of VF (10_state.md R21). -/
def vf : Nibble := 0xF

/-- The flag of `8xy4`: the exact sum is above 255 (42_alu.md R178). -/
def carryFlag (a b : Byte) : Byte := boolByte (decide (a.toNat + b.toNat > 255))

/-- The flag of `8xy5` and `8xy7`: the minuend is strictly greater (42_alu.md R179, R181). -/
def greaterFlag (minuend subtrahend : Byte) : Byte := boolByte (decide (minuend > subtrahend))

/-- The flag of `8xy6`: the bit shifted out at the bottom (42_alu.md R180). -/
def lowBitFlag (b : Byte) : Byte := b &&& 1

/-- The flag of `8xyE`: the bit shifted out at the top (42_alu.md R182). -/
def highBitFlag (b : Byte) : Byte := (b >>> 7) &&& 1

/-- `VF_WRITE_ORDER` of this machine: flag first, result second (42_alu.md R171, 90_conflicts.md C1, decision D8;
log 6). -/
def vfWriteOrder : Config.VfWriteOrder := .flagThenResult

/-- The two writes of `8xy4`, `8xy5`, `8xy6`, `8xy7`, `8xyE`, in the machine's order (42_alu.md R171). -/
def setFlagAndResult (s : State) (x : Nibble) (flag result : Byte) : State :=
  match vfWriteOrder with
  | .flagThenResult => (s.setV vf flag).setV x result
  | .resultThenFlag => (s.setV x result).setV vf flag

end Sys2Proof.Machine
end

