-- ==== Sys2Proof/Machine/Alu.lean ====
section
/-! DEFINITION. Register load, arithmetic, logic, shift and random instructions (spec/42_alu.md R172 to R183). Register
operands are read before anything is written (R170; log 7). -/

namespace Sys2Proof.Machine

/-- `6xkk`: `V[x] := kk` (R172). -/
def execLdImm (x : Nibble) (kk : Byte) (s : State) : Host.Outcome State Fault Refusal :=
  .next (s.setV x kk).advance

/-- `7xkk`: `V[x] := V[x] + kk` modulo 256, no flag (R173). -/
def execAddImm (x : Nibble) (kk : Byte) (s : State) : Host.Outcome State Fault Refusal :=
  .next (s.setV x (s.readV x + kk)).advance

/-- `8xy0`: `V[x] := V[y]` (R174). -/
def execLdReg (x y : Nibble) (s : State) : Host.Outcome State Fault Refusal :=
  .next (s.setV x (s.readV y)).advance

/-- `8xy1`: `V[x] := V[x] OR V[y]` (R175). -/
def execOrReg (x y : Nibble) (s : State) : Host.Outcome State Fault Refusal :=
  .next (s.setV x (s.readV x ||| s.readV y)).advance

/-- `8xy2`: `V[x] := V[x] AND V[y]` (R176). -/
def execAndReg (x y : Nibble) (s : State) : Host.Outcome State Fault Refusal :=
  .next (s.setV x (s.readV x &&& s.readV y)).advance

/-- `8xy3`: `V[x] := V[x] XOR V[y]` (R177). -/
def execXorReg (x y : Nibble) (s : State) : Host.Outcome State Fault Refusal :=
  .next (s.setV x (s.readV x ^^^ s.readV y)).advance

/-- `8xy4`: add, carry in VF (R178). -/
def execAddReg (x y : Nibble) (s : State) : Host.Outcome State Fault Refusal :=
  let a := s.readV x
  let b := s.readV y
  .next (setFlagAndResult s x (carryFlag a b) (a + b)).advance

/-- `8xy5`: `V[x] − V[y]`, VF = (V[x] > V[y]) (R179). -/
def execSubReg (x y : Nibble) (s : State) : Host.Outcome State Fault Refusal :=
  let a := s.readV x
  let b := s.readV y
  .next (setFlagAndResult s x (greaterFlag a b) (a - b)).advance

/-- `8xy6`: shift right by 1, VF = bit out (R180). -/
def execShr (x y : Nibble) (s : State) : Host.Outcome State Fault Refusal :=
  let b := shiftSource s x y
  .next (setFlagAndResult s x (lowBitFlag b) (b >>> 1)).advance

/-- `8xy7`: `V[y] − V[x]`, VF = (V[y] > V[x]) (R181). -/
def execSubn (x y : Nibble) (s : State) : Host.Outcome State Fault Refusal :=
  let a := s.readV x
  let b := s.readV y
  .next (setFlagAndResult s x (greaterFlag b a) (b - a)).advance

/-- `8xyE`: shift left by 1, VF = bit out (R182). -/
def execShl (x y : Nibble) (s : State) : Host.Outcome State Fault Refusal :=
  let b := shiftSource s x y
  .next (setFlagAndResult s x (highBitFlag b) (b <<< 1)).advance

/-- `Cxkk`: `V[x] := random_byte() AND kk`, the byte a free draw (R183; log 8). -/
def execRnd (x : Nibble) (kk : Byte) (s : State) : Host.Outcome State Fault Refusal :=
  let (r, s') := drawByte s
  .next (s'.setV x (r &&& kk)).advance

end Sys2Proof.Machine
end

