-- ==== Sys2Proof/Machine/Display.lean ====
section
/-! DEFINITION. The XOR framebuffer and the display instructions (spec/44_display.md R220 to R225). -/

namespace Sys2Proof.Machine

/-- `FB[py][px]` (10_state.md R30). -/
def pixelOn (fb : Framebuffer) (px : Fin 64) (py : Fin 32) : Bool := fb[py][px]

/-- `FB[py][px] <- b`. -/
def setPixel (fb : Framebuffer) (px : Fin 64) (py : Fin 32) (b : Bool) : Framebuffer := fb.set py (fb[py].set px b)

/-- One bit of a sprite: if set, the target pixel is toggled, and turning it off is a collision (R220, R221). -/
def drawBit (ox oy r c : Nat) (bit : Bool) (acc : Framebuffer × Bool) : Framebuffer × Bool :=
  if bit then
    let px := Fin.ofNat 64 (ox + c)
    let py := Fin.ofNat 32 (oy + r)
    (setPixel acc.1 px py (!pixelOn acc.1 px py), acc.2 || pixelOn acc.1 px py)
  else acc

/-- One row of a sprite, columns 0 to 7, bit 7 the column 0 (R220). -/
def drawRow (ox oy r : Nat) (row : Byte) (acc : Framebuffer × Bool) : Framebuffer × Bool :=
  (List.range 8).foldl (fun acc c => drawBit ox oy r c (row.getLsbD (7 - c)) acc) acc

/-- The rows of a sprite from row number `r` on, in ascending order (R220). -/
def drawRows (ox oy : Nat) : Nat → List Byte → Framebuffer × Bool → Framebuffer × Bool
  | _, [], acc => acc
  | r, row :: rows, acc => drawRows ox oy (r + 1) rows (drawRow ox oy r row acc)

/-- `DrawSprite(ox, oy, rows)`: the new framebuffer and `collided` (R220). -/
def drawSprite (ox oy : Byte) (rows : List Byte) (fb : Framebuffer) : Framebuffer × Bool :=
  drawRows ox.toNat oy.toNat 0 rows (fb, false)

/-- `00E0`: every pixel off; VF is not written (R222). -/
def execCls (s : State) : Host.Outcome State Fault Refusal := .next (s.setFb blankFramebuffer).advance

/-- `Dxyn`: all `n` rows are read from `I`, then drawn at `(V[x], V[y])`, and VF is the collision (R223; log 20). -/
def execDrw (x y n : Nibble) (s : State) : Host.Outcome State Fault Refusal :=
  settle do
    let rows ← readBytes s.mem (effAddr s 0) n.toNat
    let drawn := drawSprite (s.readV x) (s.readV y) rows s.fb
    return ((s.setFb drawn.1).setV vf (boolByte drawn.2)).advance

end Sys2Proof.Machine
end

