-- ==== Sys2Proof/Machine/Flow.lean ====
section
/-! DEFINITION. The control-flow instructions (spec/41_flow.md R153 to R161). -/

namespace Sys2Proof.Machine

/-- `00EE`: `pc := pop()` (R153). -/
def execRet (s : State) : Host.Outcome State Fault Refusal :=
  settle do
    let (a, s') ← pop s
    return s'.setPc a

/-- `0nnn`: a no-op (R154). -/
def execSys (_nnn : Addr12) (s : State) : Host.Outcome State Fault Refusal := .next s.advance

/-- `1nnn`: `pc := nnn` (R155). -/
def execJp (nnn : Addr12) (s : State) : Host.Outcome State Fault Refusal := .next (s.setPc (zextAddr nnn))

/-- `2nnn`: push the address after the call, `pc := nnn` (R156; log 17). -/
def execCall (nnn : Addr12) (s : State) : Host.Outcome State Fault Refusal :=
  settle do
    let s' ← push s (s.pc + 2)
    return s'.setPc (zextAddr nnn)

/-- `3xkk`: skip if `V[x] = kk` (R157). -/
def execSeImm (x : Nibble) (kk : Byte) (s : State) : Host.Outcome State Fault Refusal :=
  .next (s.skipIf (s.readV x == kk))

/-- `4xkk`: skip if `V[x] ≠ kk` (R158). -/
def execSneImm (x : Nibble) (kk : Byte) (s : State) : Host.Outcome State Fault Refusal :=
  .next (s.skipIf (s.readV x != kk))

/-- `5xy0`: skip if `V[x] = V[y]` (R159). -/
def execSeReg (x y : Nibble) (s : State) : Host.Outcome State Fault Refusal :=
  .next (s.skipIf (s.readV x == s.readV y))

/-- `9xy0`: skip if `V[x] ≠ V[y]` (R160). -/
def execSneReg (x y : Nibble) (s : State) : Host.Outcome State Fault Refusal :=
  .next (s.skipIf (s.readV x != s.readV y))

/-- `Bnnn`: `pc := nnn + V[0]`, exact and not masked (R161; log 18). -/
def execJpV0 (nnn : Addr12) (s : State) : Host.Outcome State Fault Refusal :=
  .next (s.setPc (zextAddr nnn + zextByte (s.readV 0)))

end Sys2Proof.Machine
end

