-- ==== Sys2Proof/Machine/IndexMemory.lean ====
section
/-! DEFINITION. Address-register and memory instructions (spec/43_index_memory.md R200 to R206). -/

namespace Sys2Proof.Machine

/-- `Annn`: `I := nnn` (R200). -/
def execLdI (nnn : Addr12) (s : State) : Host.Outcome State Fault Refusal :=
  .next (s.setI (zextAddr nnn)).advance

/-- `Fx1E`: `I := I + V[x]`, no flag; above 65535 it raises (R201, R206). -/
def execAddI (x : Nibble) (s : State) : Host.Outcome State Fault Refusal :=
  settle do
    let s' ← addToI s (s.readV x).toNat
    return s'.advance

/-- `Fx29`: `I := V[x] * 5`, the whole byte (R202). -/
def execLdGlyph (x : Nibble) (s : State) : Host.Outcome State Fault Refusal :=
  .next (s.setI (zextByte (s.readV x) * 5)).advance

/-- `Fx33`: the decimal digits of `V[x]` to `MEM[I..I+2]` (R203). -/
def execBcd (x : Nibble) (s : State) : Host.Outcome State Fault Refusal :=
  settle do
    let m ← writeBytes s.mem (effAddr s 0) (decimalDigits (s.readV x))
    return (s.setMem m).advance

/-- `Fx55`: `V[0..x]` to `MEM[I..I+x]`, then the LEGACY_SL increment (R204). -/
def execStore (x : Nibble) (s : State) : Host.Outcome State Fault Refusal :=
  settle do
    let m ← writeBytes s.mem (effAddr s 0) (regsUpTo s x)
    let s' ← legacyAdvanceI (s.setMem m) x
    return s'.advance

/-- `Fx65`: `MEM[I..I+x]` to `V[0..x]`, then the LEGACY_SL increment (R205). -/
def execLoad (x : Nibble) (s : State) : Host.Outcome State Fault Refusal :=
  settle do
    let bytes ← readBytes s.mem (effAddr s 0) (x.toNat + 1)
    let s' ← legacyAdvanceI (s.setVPrefix bytes) x
    return s'.advance

end Sys2Proof.Machine
end

