-- ==== Sys2Proof/Machine/KeypadTimer.lean ====
section
/-! DEFINITION. Keypad and timer instructions (spec/45_keypad_timer.md R240 to R246). -/

namespace Sys2Proof.Machine

/-- `KEYS[k]` for a key index held in a byte; above 15 it raises (R240; log 10). -/
def keyState (s : State) (k : Byte) : Except Fault Bool :=
  if k ≤ 15 then .ok (s.key (k.setWidth 4)) else .error (.undefinedKeyIndex k)

/-- `Ex9E`: skip if the key `V[x]` is pressed (R241). -/
def execSkp (x : Nibble) (s : State) : Host.Outcome State Fault Refusal :=
  settle do
    let pressed ← keyState s (s.readV x)
    return s.skipIf pressed

/-- `ExA1`: skip if the key `V[x]` is not pressed (R242). -/
def execSknp (x : Nibble) (s : State) : Host.Outcome State Fault Refusal :=
  settle do
    let pressed ← keyState s (s.readV x)
    return s.skipIf (!pressed)

/-- `Fx07`: `V[x] := DT` (R244). -/
def execLdFromDt (x : Nibble) (s : State) : Host.Outcome State Fault Refusal := .next (s.setV x s.dt).advance

/-- `Fx0A`: the machine begins to wait for a key press, which KEY ends (R243; log 14). -/
def execLdKey (x : Nibble) (s : State) : Host.Outcome State Fault Refusal :=
  .next (s.setRun (.awaitingKey x)).advance

/-- `Fx15`: `DT := V[x]` (R245). -/
def execLdDt (x : Nibble) (s : State) : Host.Outcome State Fault Refusal := .next (s.setDt (s.readV x)).advance

/-- `Fx18`: `ST := V[x]` (R246). -/
def execLdSt (x : Nibble) (s : State) : Host.Outcome State Fault Refusal := .next (s.setSt (s.readV x)).advance

end Sys2Proof.Machine
end

