-- ==== Sys2Proof/Machine/Cycle.lean ====
section
/-! DEFINITION. The step cycle of spec/40_step_and_host_ops.md R121 to R126, which `step` calls. -/

namespace Sys2Proof.Machine

/-- Decode and execute a fetched word (R121, R123): an undefined word is a fatal decode error (60_exceptions.md R262). -/
def decodeAndExecute (op16 : Word) (s : State) : Host.Outcome State Fault Refusal :=
  match decodeWord op16 with
  | none => raise (.decodeError op16)
  | some ins => exec ins s

/-- `STEP(rnd)` (R121): a faulted machine answers its cause again (R126), a waiting one does nothing (R125), a running
one fetches, decodes and executes one instruction. `rnd` is drawn by `Cxkk` itself (`drawByte`). -/
def cycle (s : State) : Host.Outcome State Fault Refusal :=
  match s.run with
  | .faulted c => raise c
  | .awaitingKey _ => .next s
  | .running =>
    match fetch s with
    | .error c => raise c
    | .ok op16 => decodeAndExecute op16 s

/-- The largest `pc` from which a fetch succeeds (R122). -/
def lastFetchable : Nat := 4094

/-- The `pc` that `withFetchWord` fetches from: `pc` itself where a fetch can succeed, else the program base (log 21). -/
def fetchPc (s : State) : Word := if s.pc.toNat ≤ lastFetchable then s.pc else BitVec.ofNat 16 Config.progBase

/-- A word stored where STEP fetches next: high byte at the fetching `pc`, low byte after it, `RUN = Running` (log 21). -/
def placeFetchWord (s : State) (op16 : Word) : State :=
  { s with
    pc := fetchPc s
    run := .running
    mem := s.mem.writeAll (fetchPc s).toNat [highByte op16, lowByte op16] }

end Sys2Proof.Machine
end

