-- ==== Sys2Proof/Machine/Step.lean ====
section
/-! DEFINITION. One step of the machine: the operation STEP (spec/40_step_and_host_ops.md R121). -/

namespace Sys2Proof.Machine

/-- STEP, as `cycle` gives it. -/
def step (s : State) : Host.Outcome State Fault Refusal := cycle s

/-- The state with the word `w` of `nbits` bits where `step` fetches its next instruction (log 21). -/
def State.withFetchWord (s : State) (nbits w : Nat) : State := placeFetchWord s (BitVec.ofNat 16 (w % 2 ^ nbits))

end Sys2Proof.Machine
end

