-- ==== Sys2Proof/Machine/HostOps.lean ====
section
/-! DEFINITION. The six operations of the CORE's interface as atomic transitions (spec/40_step_and_host_ops.md R120 to
R136, spec/60_exceptions.md R268, R274, R275, spec/70_reset_and_hazards.md R300, R304), and the host's view of KEYS
(spec/10_state.md R35), which is no operation. `step` is STEP; the other operations are the host's moves, and any list of
operations is a run (R134; log 13). -/

namespace Sys2Proof.Machine

/-- The interface operations with their inputs, exactly those of R120 (R136). LOAD takes bytes, so its domain is its type;
the domains of KEY and PIXEL are checked by `perform` (R135). `rnd` of STEP is drawn by `Cxkk` (R133). -/
inductive HostOp where
  /-- `RESET(legacy_sl, legacy_shift)` with the parameter GLYPHS. -/
  | reset (glyphs : Vector Byte 80) (legacySl legacyShift : Bool)
  /-- `LOAD(bytes)`. -/
  | load (bytes : List Byte)
  /-- `STEP(rnd)`. -/
  | step
  /-- `TICK()`. -/
  | tick
  /-- `KEY(k, pressed)`. -/
  | key (k : Nat) (pressed : Bool)
  /-- `PIXEL(x, y)`, column first. -/
  | pixel (x y : Nat)
deriving DecidableEq, Repr

/-- What an operation returns to the host (00_scope.md R9, R120). -/
inductive Reply where
  /-- Done, with no result. -/
  | ok
  /-- The result of STEP after a fatal condition. -/
  | fatal (cause : Fault)
  /-- The result of an oversize LOAD (R128). -/
  | loadError
  /-- The tone event of TICK (60_exceptions.md R275). -/
  | tone (fired : Bool)
  /-- The pixel PIXEL reads (R131). -/
  | pixel (on : Bool)
deriving DecidableEq, Repr

/-- An operation ends in a state and a reply, or is refused as no operation of this hardware. -/
inductive OpOutcome where
  /-- The operation happened. -/
  | done (s : State) (r : Reply)
  /-- The call is no operation of this hardware (R126, R135). -/
  | refused (r : Refusal)
deriving DecidableEq, Repr

/-- `RESET(legacy_sl, legacy_shift)`: the state of 10_state.md R36 with the glyph bytes and the flags given
(70_reset_and_hazards.md R300). -/
def State.construct (glyphs : Vector Byte 80) (legacySl legacyShift : Bool) : State :=
  { State.reset with
    mem := Memory.writeAll [] 0 glyphs.toList
    legacySl := legacySl
    legacyShift := legacyShift }

/-- `LOAD(bytes)`: copies the bytes to 512 and up and changes nothing else (R127, R304; log 16); an oversize program is
`LoadError` and changes nothing (R128). -/
def loadProgram (bytes : List Byte) (s : State) : State × Reply :=
  if bytes.length ≤ Config.maxProgLen then (s.setMem (s.mem.writeAll Config.progBase bytes), .ok) else (s, .loadError)

/-- A timer after one tick: it stops at 0 (60_exceptions.md R274). -/
def tickDown (t : Byte) : Byte := if t = 0 then 0 else t - 1

/-- `TICK()`: the tone fires iff `ST > 0` before the decrement (60_exceptions.md R274, R275; log 15). -/
def tickTimers (s : State) : State × Reply :=
  ((s.setDt (tickDown s.dt)).setSt (tickDown s.st), .tone (s.st != 0))

/-- What a not-pressed to pressed transition of key `k` does to a waiting machine: `V[x] <- k`, `RUN <- Running`
(R130; log 14). -/
def endKeyWait (k : Nibble) (s : State) : State :=
  match s.run with
  | .awaitingKey x => (s.setV x (k.setWidth 8)).setRun .running
  | .running => s
  | .faulted _ => s

/-- `KEY(k, pressed)`: the key takes the state reported, and an edge from not pressed to pressed ends a key wait
(R129, R130). -/
def setInput (k : Nibble) (pressed : Bool) (s : State) : State × Reply :=
  let s' := s.setKey k pressed
  (if !s.key k && pressed then endKeyWait k s' else s', .ok)

/-- `PIXEL(x, y)` inside its domain: `FB[y][x]` (R131). -/
def getPixel (px : Fin 64) (py : Fin 32) (s : State) : State × Reply := (s, .pixel (pixelOn s.fb px py))

/-- What the host sees when it reads KEYS back (10_state.md R35). DESIGN CHOICE (log 23): a view of the state between two
operations, not an operation, so the host's moves stay those of R120 (R136). -/
def readBackKeys (s : State) : Vector Bool 16 := s.keys

/-- STEP as an operation: its outcome, with the state a fatal condition leaves (60_exceptions.md R268). A faulted
machine stays as it is and answers its cause again (R126). -/
def stepOperation (s : State) : OpOutcome :=
  match step s with
  | .next s' => .done s' .ok
  | .fault c =>
    match s.run with
    | .faulted _ => .done s (.fatal c)
    | .running => .done (enterFaulted c s) (.fatal c)
    | .awaitingKey _ => .done (enterFaulted c s) (.fatal c)
  | .refused r => .refused r

/-- An operation that has a meaning only before a fatal condition (R126; log 12). -/
def beforeFatal (s : State) (result : State × Reply) : OpOutcome :=
  match s.run with
  | .faulted _ => .refused .operationAfterFatal
  | .running => .done result.1 result.2
  | .awaitingKey _ => .done result.1 result.2

/-- One operation of the host on the machine (R120). RESET constructs a new machine in place of the old; only the count
of free draws goes on, so that no draw is repeated (log 8). -/
def perform (op : HostOp) (s : State) : OpOutcome :=
  match op with
  | .reset glyphs sl shift => .done { State.construct glyphs sl shift with draws := s.draws } .ok
  | .load bytes => beforeFatal s (loadProgram bytes s)
  | .step => stepOperation s
  | .tick => beforeFatal s (tickTimers s)
  | .key k pressed =>
    if k < 16 then beforeFatal s (setInput (BitVec.ofNat 4 k) pressed s) else .refused (.keyOutsideDomain k)
  | .pixel x y =>
    if h : x < 64 ∧ y < 32 then beforeFatal s (getPixel ⟨x, h.1⟩ ⟨y, h.2⟩ s) else .refused (.pixelOutsideDomain x y)

/-- A run: operations one after another (R134), with the replies in order; a refused call ends it. -/
def performAll : List HostOp → State → Except Refusal (State × List Reply)
  | [], s => .ok (s, [])
  | op :: ops, s =>
    match perform op s with
    | .refused r => .error r
    | .done s' r =>
      match performAll ops s' with
      | .error e => .error e
      | .ok (t, rs) => .ok (t, r :: rs)

end Sys2Proof.Machine
end

