-- ==== Sys2Proof/Safety.lean ====
section
/-! DEFINITION. What counts as a safe run, in the terms the statements use: the invariants of spec/10_state.md R37, the
reachable states of spec/40_step_and_host_ops.md R134, and what it means that a part of the state is unchanged. -/

namespace Sys2Proof.Machine

/-- The invariants of 10_state.md R37 that the types do not already give, and the canonical form of memory: `pc` at most
0x10FE and every live stack entry in 2..4096. -/
structure State.Inv (s : State) : Prop where
  memWf : s.mem.wf = true
  pcBound : s.pc.toNat ≤ 0x10FE
  liveEntries : ∀ k : Fin 16, k.val < s.sp.val → 2 ≤ s.stack[k].toNat ∧ s.stack[k].toNat ≤ 4096

/-- The machine has met a fatal condition. -/
def State.isFaulted (s : State) : Bool :=
  match s.run with
  | .faulted _ => true
  | .running => false
  | .awaitingKey _ => false

/-- States some legal run reaches: any operations after a RESET (R134). -/
inductive Reachable : State → Prop where
  /-- RESET makes a machine, whatever draws have been taken before. -/
  | reset (glyphs : Vector Byte 80) (legacySl legacyShift : Bool) (draws : Nat) :
      Reachable { State.construct glyphs legacySl legacyShift with draws := draws }
  /-- An operation of the host leads on. -/
  | perform {s t : State} (op : HostOp) (r : Reply) (hs : Reachable s) (h : perform op s = .done t r) : Reachable t

/-- A STEP is safe: it answers `Ok`, and meets no fatal condition. -/
def State.stepsSafely (s : State) : Prop := ∃ t, step s = .next t

/-- Every register but those in `dest` is unchanged. -/
def sameRegsBut (dest : List Nibble) (s t : State) : Prop := ∀ r : Nibble, r ∉ dest → t.readV r = s.readV r

/-- Every byte of memory reads as before. -/
def sameMemory (s t : State) : Prop := ∀ addr : Nat, t.byteAt addr = s.byteAt addr

/-- The call stack is unchanged. -/
def sameStack (s t : State) : Prop := t.sp = s.sp ∧ t.stack = s.stack

/-- The address register and both timers are unchanged. -/
def sameIAndTimers (s t : State) : Prop := t.i = s.i ∧ t.dt = s.dt ∧ t.st = s.st

/-- Every pixel is unchanged. -/
def sameDisplay (s t : State) : Prop := ∀ (px : Fin 64) (py : Fin 32), pixelOn t.fb px py = pixelOn s.fb px py

/-- The key array, RUN and the configuration flags are unchanged. -/
def sameControl (s t : State) : Prop :=
  (∀ k : Nibble, t.key k = s.key k) ∧ t.run = s.run ∧ t.legacySl = s.legacySl ∧ t.legacyShift = s.legacyShift

/-- The frame of an instruction that writes only the registers `dest` and `pc`, and takes no free draw: memory, stack,
`I`, timers, display, keys, RUN and flags are unchanged, and so is every register outside `dest`. -/
def onlyRegs (dest : List Nibble) (s t : State) : Prop :=
  sameRegsBut dest s t ∧ sameMemory s t ∧ sameStack s t ∧ sameIAndTimers s t ∧ sameDisplay s t ∧ sameControl s t ∧
    t.draws = s.draws

/-- The registers the spec lets an instruction write, as destination or as flag (10_state.md R21, R22). -/
def writtenRegs : Instr → List Nibble
  | .ldImm x _ | .addImm x _ | .ldReg x _ | .orReg x _ | .andReg x _ | .xorReg x _ | .rnd x _ | .ldFromDt x => [x]
  | .addReg x _ | .subReg x _ | .shr x _ | .subn x _ | .shl x _ => [x, vf]
  | .drw _ _ _ => [vf]
  | .load x => (List.range (x.toNat + 1)).map (BitVec.ofNat 4)
  | .cls | .ret | .sys _ | .jp _ | .call _ | .seImm _ _ | .sneImm _ _ | .seReg _ _ | .sneReg _ _ | .ldI _ | .jpV0 _
  | .skp _ | .sknp _ | .ldKey _ | .ldDt _ | .ldSt _ | .addI _ | .ldGlyph _ | .bcd _ | .store _ => []

/-- The instructions that store to memory (20_memory.md R68). -/
def storesToMemory : Instr → Bool
  | .bcd _ | .store _ => true
  | .cls | .ret | .sys _ | .jp _ | .call _ | .seImm _ _ | .sneImm _ _ | .seReg _ _ | .ldImm _ _ | .addImm _ _
  | .ldReg _ _ | .orReg _ _ | .andReg _ _ | .xorReg _ _ | .addReg _ _ | .subReg _ _ | .shr _ _ | .subn _ _
  | .shl _ _ | .sneReg _ _ | .ldI _ | .jpV0 _ | .rnd _ _ | .drw _ _ _ | .skp _ | .sknp _ | .ldFromDt _ | .ldKey _
  | .ldDt _ | .ldSt _ | .addI _ | .ldGlyph _ | .load _ => false

/-- Where an instruction may leave `pc` (10_state.md R26): the popped entry, the target, or `pc0 + 2`, and `pc0 + 4` for
the six skips. -/
def pcSuccessor (i : Instr) (s t : State) : Prop :=
  match i with
  | .ret => ∀ k : Fin 16, k.val + 1 = s.sp.val → t.pc = s.stack[k]
  | .jp nnn | .call nnn => t.pc.toNat = nnn.toNat
  | .jpV0 nnn => t.pc.toNat = nnn.toNat + (s.readV 0).toNat
  | .seImm _ _ | .sneImm _ _ | .seReg _ _ | .sneReg _ _ | .skp _ | .sknp _ => t.pc = s.pc + 2 ∨ t.pc = s.pc + 4
  | .cls | .sys _ | .ldImm _ _ | .addImm _ _ | .ldReg _ _ | .orReg _ _ | .andReg _ _ | .xorReg _ _ | .addReg _ _
  | .subReg _ _ | .shr _ _ | .subn _ _ | .shl _ _ | .ldI _ | .rnd _ _ | .drw _ _ _ | .ldFromDt _ | .ldKey _ | .ldDt _
  | .ldSt _ | .addI _ | .ldGlyph _ | .bcd _ | .store _ | .load _ => t.pc = s.pc + 2

/-- The undefined words, as the table of 30_encoding.md R96 lists them, by arithmetic on the word. -/
def undefinedWord (w : Word) : Bool :=
  let op := w.toNat / 4096
  let n := w.toNat % 16
  let kk := w.toNat % 256
  (op == 0x5 && n != 0) || (op == 0x8 && [0x8, 0x9, 0xA, 0xB, 0xC, 0xD, 0xF].contains n) || (op == 0x9 && n != 0) ||
  (op == 0xE && !([0x9E, 0xA1].contains kk)) ||
  (op == 0xF && !([0x07, 0x0A, 0x15, 0x18, 0x1E, 0x29, 0x33, 0x55, 0x65].contains kk))

/-- A set bit of the sprite `Dxyn` draws from state `s` lands on the pixel (44_display.md R220): row `r` is the byte at
`I + r`, its bit 7 is column 0, and the target is `((V[x] + c) mod 64, (V[y] + r) mod 32)`. -/
def spriteCovers (s : State) (x y n : Nibble) (px : Fin 64) (py : Fin 32) : Prop :=
  ∃ r c : Nat, r < n.toNat ∧ c < 8 ∧ (s.byteAt (effAddr s r)).getLsbD (7 - c) = true ∧
    px.val = ((s.readV x).toNat + c) % 64 ∧ py.val = ((s.readV y).toNat + r) % 32

/-- What the host sees of an operation: its reply, or that the call was refused (10_state.md R35). -/
def replyOf : OpOutcome → Except Refusal Reply
  | .done _ r => .ok r
  | .refused e => .error e

/-- Executing instructions one after another, wherever `pc` stands. -/
def execAll : List Instr → State → Host.Outcome State Fault Refusal
  | [], s => .next s
  | i :: is, s =>
    match exec i s with
    | .next t => execAll is t
    | .fault c => .fault c
    | .refused r => .refused r

end Sys2Proof.Machine
end

