-- ==== Sys2Proof/Certificates/Slice0/Obligations.lean ====
section
/-! DEFINITION. The statements for the provers, from the numbered rules of spec/. "R<n>" names a rule; a statement whose
rule carries one of the spec's own decisions D<n> says so in its docstring. -/

open Sys2Proof Sys2Proof.Machine

/-! ### The step cycle -/

/-- R121: a running machine whose two bytes at `pc` decode to an instruction executes exactly that instruction; STEP
adds nothing around it. -/
def Obligations.StepRunsDecodedInstruction : Prop :=
  ∀ (s : State) (i : Instr), s.run = .running → s.pc.toNat ≤ 4094 →
    decodeWord (s.byteAt s.pc.toNat ++ s.byteAt (s.pc.toNat + 1)) = some i → step s = exec i s

/-- R122: the fetch raises at `pc` if `pc > 4095`, at 4096 if `pc = 4095`, and otherwise composes the two bytes
big-endian, at any `pc`, odd or even. -/
def Obligations.FetchIsCheckedAndBigEndian : Prop :=
  ∀ s : State, s.run = .running →
    (4095 < s.pc.toNat → step s = .fault (.memoryOutOfRange s.pc.toNat)) ∧
    (s.pc.toNat = 4095 → step s = .fault (.memoryOutOfRange 4096)) ∧
    (s.pc.toNat ≤ 4094 → fetch s = .ok (s.byteAt s.pc.toNat ++ s.byteAt (s.pc.toNat + 1)))

/-- R262 with the word list of R96: after a successful fetch STEP answers DecodeError, with the fetched word, exactly
when the word is in the list. For `9xyn` with `n ≠ 0` the list is the spec's decision D10. -/
def Obligations.DecodeErrorExactlyOnUndefinedWords : Prop :=
  ∀ s : State, s.run = .running → s.pc.toNat ≤ 4094 →
    ∀ w : Word, w = s.byteAt s.pc.toNat ++ s.byteAt (s.pc.toNat + 1) →
      ((∃ v : Word, step s = .fault (.decodeError v)) ↔ undefinedWord w = true) ∧
      (undefinedWord w = true → step s = .fault (.decodeError w))

/-- R125: a STEP of a waiting machine changes nothing and returns Ok; TICK, LOAD and PIXEL work meanwhile and do not lift
the wait. A KEY that reports no press edge does not lift it and a KEY that reports one does: that it is the edge, not the
level, is the spec's decision D13 (log 14). -/
def Obligations.OnlyAKeyPressLiftsTheWait : Prop :=
  ∀ (s : State) (x : Nibble), s.run = .awaitingKey x →
    step s = .next s ∧ perform .step s = .done s .ok ∧
    (∃ t r, perform .tick s = .done t r ∧ t.run = .awaitingKey x) ∧
    (∀ bytes, ∃ t r, perform (.load bytes) s = .done t r ∧ t.run = .awaitingKey x) ∧
    (∀ px py, px < 64 → py < 32 → ∃ t r, perform (.pixel px py) s = .done t r ∧ t.run = .awaitingKey x) ∧
    (∀ (k : Nibble) (pressed : Bool), (s.key k = true ∨ pressed = false) →
      ∃ t, perform (.key k.toNat pressed) s = .done t .ok ∧ t.run = .awaitingKey x) ∧
    (∀ k : Nibble, s.key k = false → ∃ t, perform (.key k.toNat true) s = .done t .ok ∧ t.run = .running)

/-- R126 and R268, which rest on the spec's decision D16 (log 11, log 12): a fatal condition leaves `Faulted(cause)`; from
then on STEP answers the same cause and changes nothing, and LOAD, TICK, KEY and PIXEL are refused. That the flags are
kept is the model's choice (log 11), and so are the refusals (log 12). -/
def Obligations.FatalConditionIsAbsorbing : Prop :=
  (∀ (s : State) (c : Fault), s.run = .running → step s = .fault c →
    ∃ t, perform .step s = .done t (.fatal c) ∧ t.run = .faulted c ∧ t.legacySl = s.legacySl ∧
      t.legacyShift = s.legacyShift) ∧
  (∀ (s : State) (c : Fault), s.run = .faulted c →
    step s = .fault c ∧ perform .step s = .done s (.fatal c) ∧
    perform .tick s = .refused .operationAfterFatal ∧
    (∀ bytes, perform (.load bytes) s = .refused .operationAfterFatal) ∧
    (∀ k pressed, k < 16 → perform (.key k pressed) s = .refused .operationAfterFatal) ∧
    (∀ px py, px < 64 → py < 32 → perform (.pixel px py) s = .refused .operationAfterFatal))

/-- No step is refused: every instruction has its meaning, and what stops is a fatal condition of R260 or R266. -/
def Obligations.NoStepIsRefused : Prop :=
  ∀ (s : State) (r : Refusal), step s ≠ .refused r

/-! ### Encoding -/

/-- R90, R95: every well-formed instruction decodes from its own bytes, whatever follows them. -/
def Obligations.DecodeOfEncodeIsIdentity : Prop :=
  ∀ (i : Instr) (rest : List Byte), i.wellFormed = true → decode (encode i ++ rest) = some (i, rest)

/-- R95, R102: bytes that decode are the encoding of what they decode to, which is well formed: no defined word has two
meanings and no bit of it is dropped. -/
def Obligations.EncodeOfDecodedIsIdentity : Prop :=
  ∀ (bytes rest : List Byte) (i : Instr), decode bytes = some (i, rest) → i.wellFormed = true ∧ bytes = encode i ++ rest

/-- R95: a word is decoded to an instruction of a row only if it matches the row's mask and pattern, and a word that
matches a row is decoded to an instruction of that row, `00E0` and `00EE` taking priority over `0nnn`. -/
def Obligations.DecodeFollowsOpcodeMap : Prop :=
  (∀ (w : Word) (i : Instr), decodeWord w = some i → w &&& (opcodeRow i).mask = (opcodeRow i).pattern) ∧
  (∀ (w : Word) (j : Instr), w &&& (opcodeRow j).mask = (opcodeRow j).pattern →
    ∃ i, decodeWord w = some i ∧
      (opcodeRow i = opcodeRow j ∨ ((opcodeRow j).pattern = 0#16 ∧ (w = 0x00E0#16 ∨ w = 0x00EE#16))))

/-- Words written out from R91 and R95 decode to the instructions they stand for (95_test_vectors.md V30). That `9ABE` is
undefined is the spec's decision D10 (log 19). -/
def Obligations.SampleWordsDecode : Prop :=
  decode [0x00, 0xE0] = some (.cls, []) ∧ decode [0x12, 0x34] = some (.jp 0x234, []) ∧
  decode [0x8A, 0xB4] = some (.addReg 0xA 0xB, []) ∧ decode [0xD1, 0x2F] = some (.drw 1 2 0xF, []) ∧
  decode [0xE1, 0xA1] = some (.sknp 1, []) ∧ decode [0xF1, 0x65] = some (.load 1, []) ∧
  decode [0x5A, 0xB1] = none ∧ decode [0x9A, 0xBE] = none

/-- The word placed where STEP fetches is the one that runs: the step after `withFetchWord` is exec of what the table's
word decodes to (log 21). -/
def Obligations.PlacedWordIsTheOneThatRuns : Prop :=
  ∀ (s : State) (w : Nat) (i : Instr), s.mem.wf = true → decodeTableWord 16 w = some i →
    step (s.withFetchWord 16 w) = exec i (s.withFetchWord 16 w)

/-! ### Invariants and whole-machine rules -/

/-- R37: every STEP keeps the invariants: memory canonical, `pc` at most 0x10FE, live stack entries in 2..4096. -/
def Obligations.StepKeepsInvariant : Prop :=
  ∀ s t : State, s.Inv → step s = .next t → t.Inv

/-- The invariants hold after RESET, with any glyphs and flags, and at the model's `State.reset`. -/
def Obligations.ResetMeetsInvariant : Prop :=
  State.reset.Inv ∧ ∀ (glyphs : Vector Byte 80) (sl shift : Bool), (State.construct glyphs sl shift).Inv

/-- R37 over R134: in every non-faulted state that any schedule of host operations reaches, the invariants hold. -/
def Obligations.ReachableStatesMeetInvariant : Prop :=
  ∀ s : State, Reachable s → s.isFaulted = false → s.Inv

/-- From R132: the two switches are the arguments of RESET, and no other operation changes them. That a STEP which meets a
fatal condition keeps them is the model's choice (log 11); the spec leaves that state unspecified (R268, decision D16). -/
def Obligations.ConfigurationIsConstant : Prop :=
  (∀ (s : State) (glyphs : Vector Byte 80) (sl shift : Bool), ∃ t,
    perform (.reset glyphs sl shift) s = .done t .ok ∧ t.legacySl = sl ∧ t.legacyShift = shift) ∧
  (∀ (s t : State) (op : HostOp) (r : Reply), (∀ glyphs sl shift, op ≠ .reset glyphs sl shift) →
    perform op s = .done t r → t.legacySl = s.legacySl ∧ t.legacyShift = s.legacyShift)

/-- R68, R69: an instruction other than `Fx33` and `Fx55` leaves every byte of memory as it was. -/
def Obligations.OnlyStoresChangeMemory : Prop :=
  ∀ (i : Instr) (s t : State), storesToMemory i = false → exec i s = .next t → sameMemory s t

/-- R21, R22: an instruction writes no register but its destination and, for the flag writers, VF. -/
def Obligations.OnlyNamedRegistersAreWritten : Prop :=
  ∀ (i : Instr) (s t : State), exec i s = .next t → sameRegsBut (writtenRegs i) s t

/-- R27, R30, R247: the stack changes only by `2nnn` and `00EE`, pixels only by `00E0` and `Dxyn`, DT only by `Fx15`, ST
only by `Fx18`, RUN only by `Fx0A`, `I` only by its five writers, and no instruction writes KEYS. -/
def Obligations.EachPartHasItsOnlyWriters : Prop :=
  ∀ (i : Instr) (s t : State), exec i s = .next t →
    (sameStack s t ∨ i = .ret ∨ ∃ nnn, i = .call nnn) ∧
    (sameDisplay s t ∨ i = .cls ∨ ∃ x y n, i = .drw x y n) ∧
    (t.dt = s.dt ∨ ∃ x, i = .ldDt x) ∧
    (t.st = s.st ∨ ∃ x, i = .ldSt x) ∧
    (t.run = s.run ∨ ∃ x, i = .ldKey x) ∧
    (t.i = s.i ∨ (∃ nnn, i = .ldI nnn) ∨ ∃ x, i = .addI x ∨ i = .ldGlyph x ∨ i = .store x ∨ i = .load x) ∧
    (∀ k : Nibble, t.key k = s.key k)

/-- R26, R124: every instruction leaves `pc` at one of its successors. What `00EE` pops rests on decision D6. -/
def Obligations.PcGoesOnlyToItsSuccessors : Prop :=
  ∀ (i : Instr) (s t : State), exec i s = .next t → pcSuccessor i s t

/-- R12, R155 (the end-of-run convention is the spec's decision D25): a running machine at a `1nnn` whose target is its
own address steps to the same state. -/
def Obligations.SelfJumpLeavesTheStateUnchanged : Prop :=
  ∀ (s : State) (nnn : Addr12), s.run = .running → s.pc.toNat ≤ 4094 → nnn.toNat = s.pc.toNat →
    [s.byteAt s.pc.toNat, s.byteAt (s.pc.toNat + 1)] = encode (.jp nnn) → step s = .next s

/-! ### Memory -/

/-- R61, R62: reading and writing one byte of a canonical memory. -/
def Obligations.MemoryAccessesAreCheckedBytes : Prop :=
  ∀ (m : Memory) (addr : Nat) (v : Byte), m.wf = true →
    (4095 < addr → memRead m addr = .error (.memoryOutOfRange addr) ∧
      memWrite m addr v = .error (.memoryOutOfRange addr)) ∧
    (addr ≤ 4095 → memRead m addr = .ok (m.read addr) ∧
      ∃ m', memWrite m addr v = .ok m' ∧ m'.wf = true ∧ m'.read addr = v ∧ ∀ b, b ≠ addr → m'.read b = m.read b)

/-! ### Control flow -/

/-- R154: `0nnn` advances `pc` and changes nothing else. -/
def Obligations.SysIsANoOp : Prop :=
  ∀ (s : State) (nnn : Addr12), ∃ t, exec (.sys nnn) s = .next t ∧ t.pc = s.pc + 2 ∧ onlyRegs [] s t

/-- R155: `1nnn` sets `pc` to `nnn` and changes nothing else; a target above 4094 makes the next fetch fatal, and a jump
to itself leaves the state as it is. -/
def Obligations.JumpSetsPc : Prop :=
  ∀ (s : State) (nnn : Addr12), ∃ t, exec (.jp nnn) s = .next t ∧ t.pc.toNat = nnn.toNat ∧ onlyRegs [] s t ∧
    (s.run = .running → 4094 < nnn.toNat → step t = .fault (.memoryOutOfRange 4096)) ∧
    (nnn.toNat = s.pc.toNat → t = s)

/-- R161, with the width of the sum by decision D23: `Bnnn` sets `pc` to the exact sum `nnn + V[0]`. -/
def Obligations.JumpV0AddsExactly : Prop :=
  ∀ (s : State) (nnn : Addr12), ∃ t, exec (.jpV0 nnn) s = .next t ∧
    t.pc.toNat = nnn.toNat + (s.readV 0).toNat ∧ onlyRegs [] s t

/-- R156, with what is pushed by decision D6: `2nnn` pushes the address after it and jumps, unless the stack is full. -/
def Obligations.CallPushesReturnAddress : Prop :=
  ∀ (s : State) (nnn : Addr12),
    (s.sp.val < 16 → ∃ t, exec (.call nnn) s = .next t ∧ t.pc.toNat = nnn.toNat ∧ t.sp.val = s.sp.val + 1 ∧
      (∀ k : Fin 16, t.stack[k] = if k.val = s.sp.val then s.pc + 2 else s.stack[k]) ∧
      sameRegsBut [] s t ∧ sameMemory s t ∧ sameIAndTimers s t ∧ sameDisplay s t ∧ sameControl s t ∧
      t.draws = s.draws) ∧
    (s.sp.val = 16 → exec (.call nnn) s = .fault .stackOverflow)

/-- R153, with what an entry holds by decision D6: `00EE` sets `pc` to the top live entry and pops it, unless the stack
is empty. -/
def Obligations.ReturnPopsTopEntry : Prop :=
  ∀ s : State,
    (∀ k : Fin 16, k.val + 1 = s.sp.val → ∃ t, exec .ret s = .next t ∧ t.pc = s.stack[k] ∧ t.sp.val = k.val ∧
      (∀ j : Fin 16, j.val < k.val → t.stack[j] = s.stack[j]) ∧
      sameRegsBut [] s t ∧ sameMemory s t ∧ sameIAndTimers s t ∧ sameDisplay s t ∧ sameControl s t ∧
      t.draws = s.draws) ∧
    (s.sp.val = 0 → exec .ret s = .fault .stackUnderflow)

/-- R153, R156 (decision D6): whatever runs between, if the stack is then as the call left it, `00EE` continues at the
instruction after the call, with the caller's live entries. -/
def Obligations.ReturnContinuesAfterTheCall : Prop :=
  ∀ (s t u : State) (nnn : Addr12), exec (.call nnn) s = .next t → sameStack t u →
    ∃ w, exec .ret u = .next w ∧ w.pc = s.pc + 2 ∧ w.sp = s.sp ∧
      ∀ k : Fin 16, k.val < s.sp.val → w.stack[k] = s.stack[k]

/-- R263 over R151: from an empty stack up to 16 nested calls succeed, and a 17th is fatal. -/
def Obligations.SixteenNestedCallsSucceed : Prop :=
  ∀ (s : State) (targets : List Addr12), s.sp.val = 0 →
    (targets.length ≤ 16 → ∃ t, execAll (targets.map .call) s = .next t ∧ t.sp.val = targets.length) ∧
    (16 < targets.length → execAll (targets.map .call) s = .fault .stackOverflow)

/-- R157, R158: `3xkk` and `4xkk` skip when `V[x]` is, or is not, `kk`, and change nothing but `pc`. -/
def Obligations.SkipOnImmediate : Prop :=
  ∀ (s : State) (x : Nibble) (kk : Byte),
    (∃ t, exec (.seImm x kk) s = .next t ∧ t.pc = (if s.readV x = kk then s.pc + 4 else s.pc + 2) ∧ onlyRegs [] s t) ∧
    (∃ t, exec (.sneImm x kk) s = .next t ∧ t.pc = (if s.readV x ≠ kk then s.pc + 4 else s.pc + 2) ∧ onlyRegs [] s t)

/-- R159, R160: `5xy0` and `9xy0` skip when `V[x]` is, or is not, `V[y]`, and change nothing but `pc`. -/
def Obligations.SkipOnRegisters : Prop :=
  ∀ (s : State) (x y : Nibble),
    (∃ t, exec (.seReg x y) s = .next t ∧ t.pc = (if s.readV x = s.readV y then s.pc + 4 else s.pc + 2) ∧
      onlyRegs [] s t) ∧
    (∃ t, exec (.sneReg x y) s = .next t ∧ t.pc = (if s.readV x ≠ s.readV y then s.pc + 4 else s.pc + 2) ∧
      onlyRegs [] s t)

/-! ### Registers -/

/-- R172, R173: `6xkk` loads and `7xkk` adds modulo 256; neither touches any other register, VF included. -/
def Obligations.LoadAndAddImmediate : Prop :=
  ∀ (s : State) (x : Nibble) (kk : Byte),
    (∃ t, exec (.ldImm x kk) s = .next t ∧ t.readV x = kk ∧ t.pc = s.pc + 2 ∧ onlyRegs [x] s t) ∧
    (∃ t, exec (.addImm x kk) s = .next t ∧ (t.readV x).toNat = ((s.readV x).toNat + kk.toNat) % 256 ∧
      t.pc = s.pc + 2 ∧ onlyRegs [x] s t)

/-- R174 to R177: copy, OR, AND, XOR write `V[x]` bit by bit and touch no other register, VF included. -/
def Obligations.CopyAndLogic : Prop :=
  ∀ (s : State) (x y : Nibble),
    (∃ t, exec (.ldReg x y) s = .next t ∧ t.readV x = s.readV y ∧ t.pc = s.pc + 2 ∧ onlyRegs [x] s t) ∧
    (∃ t, exec (.orReg x y) s = .next t ∧
      (∀ b, (t.readV x).getLsbD b = ((s.readV x).getLsbD b || (s.readV y).getLsbD b)) ∧
      t.pc = s.pc + 2 ∧ onlyRegs [x] s t) ∧
    (∃ t, exec (.andReg x y) s = .next t ∧
      (∀ b, (t.readV x).getLsbD b = ((s.readV x).getLsbD b && (s.readV y).getLsbD b)) ∧
      t.pc = s.pc + 2 ∧ onlyRegs [x] s t) ∧
    (∃ t, exec (.xorReg x y) s = .next t ∧
      (∀ b, (t.readV x).getLsbD b = ((s.readV x).getLsbD b != (s.readV y).getLsbD b)) ∧
      t.pc = s.pc + 2 ∧ onlyRegs [x] s t)

/-- R178, with operands read first (decision D7) and, for `x = 0xF`, the result left in VF (decision D8, log 6). -/
def Obligations.AddReportsCarry : Prop :=
  ∀ (s : State) (x y : Nibble), ∃ t, exec (.addReg x y) s = .next t ∧
    (t.readV x).toNat = ((s.readV x).toNat + (s.readV y).toNat) % 256 ∧
    (x ≠ vf → t.readV vf = if (s.readV x).toNat + (s.readV y).toNat > 255 then 1 else 0) ∧
    t.pc = s.pc + 2 ∧ onlyRegs [x, vf] s t

/-- R179, R181, with operands read first (decision D7) and, for `x = 0xF`, the result left in VF (decision D8, log 6). -/
def Obligations.SubtractReportsStrictlyGreater : Prop :=
  ∀ (s : State) (x y : Nibble),
    (∃ t, exec (.subReg x y) s = .next t ∧
      (t.readV x).toNat = (256 + (s.readV x).toNat - (s.readV y).toNat) % 256 ∧
      (x ≠ vf → t.readV vf = if (s.readV x).toNat > (s.readV y).toNat then 1 else 0) ∧
      t.pc = s.pc + 2 ∧ onlyRegs [x, vf] s t) ∧
    (∃ t, exec (.subn x y) s = .next t ∧
      (t.readV x).toNat = (256 + (s.readV y).toNat - (s.readV x).toNat) % 256 ∧
      (x ≠ vf → t.readV vf = if (s.readV y).toNat > (s.readV x).toNat then 1 else 0) ∧
      t.pc = s.pc + 2 ∧ onlyRegs [x, vf] s t)

/-- R180, R182, both settings of LEGACY_SHIFT, and, for `x = 0xF`, the result left in VF (decision D8, log 6). -/
def Obligations.ShiftsReportTheBitOut : Prop :=
  ∀ (s : State) (x y : Nibble) (source : Nat),
    source = (if s.legacyShift then s.readV y else s.readV x).toNat →
    (∃ t, exec (.shr x y) s = .next t ∧ (t.readV x).toNat = source / 2 ∧
      (x ≠ vf → (t.readV vf).toNat = source % 2) ∧ t.pc = s.pc + 2 ∧ onlyRegs [x, vf] s t) ∧
    (∃ t, exec (.shl x y) s = .next t ∧ (t.readV x).toNat = source * 2 % 256 ∧
      (x ≠ vf → (t.readV vf).toNat = source / 128) ∧ t.pc = s.pc + 2 ∧ onlyRegs [x, vf] s t)

/-- R183, with the byte a free draw (decision D17, log 8): `V[x]` is the drawn byte AND `kk`, whatever the byte is, so no
bit outside `kk` is set; the draw is counted, and nothing else changes. -/
def Obligations.RandomIsAFreeDrawUnderTheMask : Prop :=
  ∀ (s : State) (x : Nibble) (kk : Byte), ∃ t, exec (.rnd x kk) s = .next t ∧
    t.readV x = Config.randomByte s.draws &&& kk ∧ (∀ b, (t.readV x).getLsbD b = true → kk.getLsbD b = true) ∧
    t.draws = s.draws + 1 ∧ t.pc = s.pc + 2 ∧ sameRegsBut [x] s t ∧ sameMemory s t ∧ sameStack s t ∧
    sameIAndTimers s t ∧ sameDisplay s t ∧ sameControl s t

/-! ### Address register and memory instructions -/

/-- R200, R202: `Annn` loads `nnn` and `Fx29` five times the whole byte `V[x]` into `I`; nothing else changes. -/
def Obligations.LoadAddressRegister : Prop :=
  ∀ (s : State),
    (∀ nnn : Addr12, ∃ t, exec (.ldI nnn) s = .next t ∧ t.i.toNat = nnn.toNat ∧ t.pc = s.pc + 2 ∧
      sameRegsBut [] s t ∧ sameMemory s t ∧ sameStack s t ∧ t.dt = s.dt ∧ t.st = s.st ∧ sameDisplay s t ∧
      sameControl s t ∧ t.draws = s.draws) ∧
    (∀ x : Nibble, ∃ t, exec (.ldGlyph x) s = .next t ∧ t.i.toNat = (s.readV x).toNat * 5 ∧ t.pc = s.pc + 2 ∧
      sameRegsBut [] s t ∧ sameMemory s t ∧ sameStack s t ∧ t.dt = s.dt ∧ t.st = s.st ∧ sameDisplay s t ∧
      sameControl s t ∧ t.draws = s.draws)

/-- R201, with the overflow of R206 by decision D11 (log 9): `Fx1E` adds `V[x]` to `I` exactly, writes no flag, and
raises when the sum exceeds 65535. -/
def Obligations.AddToAddressRegister : Prop :=
  ∀ (s : State) (x : Nibble),
    (s.i.toNat + (s.readV x).toNat ≤ 65535 → ∃ t, exec (.addI x) s = .next t ∧
      t.i.toNat = s.i.toNat + (s.readV x).toNat ∧ t.pc = s.pc + 2 ∧
      sameRegsBut [] s t ∧ sameMemory s t ∧ sameStack s t ∧ t.dt = s.dt ∧ t.st = s.st ∧ sameDisplay s t ∧
      sameControl s t ∧ t.draws = s.draws) ∧
    (65535 < s.i.toNat + (s.readV x).toNat → exec (.addI x) s = .fault .undefinedIOverflow)

/-- R203: `Fx33` stores the decimal digits of `V[x]` at `I`, `I + 1`, `I + 2` and changes no other byte; it raises at the
first of the three addresses above 4095. -/
def Obligations.BcdStoresThreeDigits : Prop :=
  ∀ (s : State) (x : Nibble), s.mem.wf = true →
    (effAddr s 2 ≤ 4095 → ∃ t, exec (.bcd x) s = .next t ∧
      (t.byteAt (effAddr s 0)).toNat = (s.readV x).toNat / 100 ∧
      (t.byteAt (effAddr s 1)).toNat = (s.readV x).toNat / 10 % 10 ∧
      (t.byteAt (effAddr s 2)).toNat = (s.readV x).toNat % 10 ∧
      (∀ addr, addr < effAddr s 0 ∨ effAddr s 2 < addr → t.byteAt addr = s.byteAt addr) ∧
      t.pc = s.pc + 2 ∧ sameRegsBut [] s t ∧ sameStack s t ∧ sameIAndTimers s t ∧ sameDisplay s t ∧ sameControl s t ∧
      t.draws = s.draws) ∧
    (∀ k, k ≤ 2 → 4095 < effAddr s k → (∀ j, j < k → effAddr s j ≤ 4095) →
      exec (.bcd x) s = .fault (.memoryOutOfRange (effAddr s k)))

/-- R204: `Fx55` stores `V[k]` at `I + k` for `k = 0..x` and changes no other byte; `I` advances by `x + 1` exactly when
LEGACY_SL is set; it raises at the first address above 4095. -/
def Obligations.StoreWritesTheRegisterBlock : Prop :=
  ∀ (s : State) (x : Nibble), s.mem.wf = true →
    (effAddr s x.toNat ≤ 4095 → ∃ t, exec (.store x) s = .next t ∧
      (∀ k : Nibble, k.toNat ≤ x.toNat → t.byteAt (effAddr s k.toNat) = s.readV k) ∧
      (∀ addr, addr < effAddr s 0 ∨ effAddr s x.toNat < addr → t.byteAt addr = s.byteAt addr) ∧
      t.i.toNat = (if s.legacySl then s.i.toNat + x.toNat + 1 else s.i.toNat) ∧
      t.pc = s.pc + 2 ∧ sameRegsBut [] s t ∧ sameStack s t ∧ t.dt = s.dt ∧ t.st = s.st ∧ sameDisplay s t ∧
      sameControl s t ∧ t.draws = s.draws) ∧
    (∀ k, k ≤ x.toNat → 4095 < effAddr s k → (∀ j, j < k → effAddr s j ≤ 4095) →
      exec (.store x) s = .fault (.memoryOutOfRange (effAddr s k)))

/-- R205: `Fx65` loads `V[k]` from `I + k` for `k = 0..x` and changes no other register and no memory; `I` advances by
`x + 1` exactly when LEGACY_SL is set; it raises at the first address above 4095. -/
def Obligations.LoadReadsTheRegisterBlock : Prop :=
  ∀ (s : State) (x : Nibble),
    (effAddr s x.toNat ≤ 4095 → ∃ t, exec (.load x) s = .next t ∧
      (∀ k : Nibble, t.readV k = if k.toNat ≤ x.toNat then s.byteAt (effAddr s k.toNat) else s.readV k) ∧
      sameMemory s t ∧
      t.i.toNat = (if s.legacySl then s.i.toNat + x.toNat + 1 else s.i.toNat) ∧
      t.pc = s.pc + 2 ∧ sameStack s t ∧ t.dt = s.dt ∧ t.st = s.st ∧ sameDisplay s t ∧ sameControl s t ∧
      t.draws = s.draws) ∧
    (∀ k, k ≤ x.toNat → 4095 < effAddr s k → (∀ j, j < k → effAddr s j ≤ 4095) →
      exec (.load x) s = .fault (.memoryOutOfRange (effAddr s k)))

/-- R207 (90_conflicts.md C6): from any state with the memory `Fx55` left and `I` back at its first value, `Fx65` restores
the registers stored, and `I` ends at `I0 + x + 1` with LEGACY_SL and unchanged without. -/
def Obligations.LoadRestoresWhatStoreStored : Prop :=
  ∀ (s t u : State) (x : Nibble), s.mem.wf = true → exec (.store x) s = .next t → sameMemory t u → u.i = s.i →
    ∃ w, exec (.load x) u = .next w ∧ (∀ k : Nibble, k.toNat ≤ x.toNat → w.readV k = s.readV k) ∧
      w.i.toNat = if u.legacySl then s.i.toNat + x.toNat + 1 else s.i.toNat

/-! ### Display -/

/-- R222: `00E0` turns every pixel off; VF and everything else is unchanged. -/
def Obligations.ClearTurnsEveryPixelOff : Prop :=
  ∀ s : State, ∃ t, exec .cls s = .next t ∧ (∀ px py, pixelOn t.fb px py = false) ∧ t.pc = s.pc + 2 ∧
    sameRegsBut [] s t ∧ sameMemory s t ∧ sameStack s t ∧ sameIAndTimers s t ∧ sameControl s t ∧ t.draws = s.draws

/-- R220, R221, R223, with the operands read first (decision D7): `Dxyn` toggles exactly the pixels its sprite covers, wrapping modulo 64 and 32, and VF
is 1 exactly when a covered pixel was on; with `n = 0` it reads nothing and clears VF. -/
def Obligations.DrawTogglesCoveredPixels : Prop :=
  ∀ (s : State) (x y n : Nibble), (∀ r, r < n.toNat → effAddr s r ≤ 4095) → ∃ t, exec (.drw x y n) s = .next t ∧
    (∀ px py, spriteCovers s x y n px py → pixelOn t.fb px py = !pixelOn s.fb px py) ∧
    (∀ px py, ¬spriteCovers s x y n px py → pixelOn t.fb px py = pixelOn s.fb px py) ∧
    ((∃ px py, spriteCovers s x y n px py ∧ pixelOn s.fb px py = true) → t.readV vf = 1) ∧
    ((∀ px py, spriteCovers s x y n px py → pixelOn s.fb px py = false) → t.readV vf = 0) ∧
    t.pc = s.pc + 2 ∧ sameRegsBut [vf] s t ∧ sameMemory s t ∧ sameStack s t ∧ sameIAndTimers s t ∧ sameControl s t ∧
    t.draws = s.draws

/-- R223, R265: `Dxyn` raises at the first row address above 4095, before any pixel changes (decision D22). -/
def Obligations.DrawRaisesAtTheFirstBadRow : Prop :=
  ∀ (s : State) (x y n : Nibble) (r : Nat), r < n.toNat → 4095 < effAddr s r → (∀ j, j < r → effAddr s j ≤ 4095) →
    exec (.drw x y n) s = .fault (.memoryOutOfRange (effAddr s r))

/-- R224: drawing the same sprite twice at the same place restores every pixel, and the second draw reports a collision
exactly when the first turned some pixel on. -/
def Obligations.DrawingTwiceRestoresTheScreen : Prop :=
  ∀ (s t : State) (x y n : Nibble), x ≠ vf → y ≠ vf → exec (.drw x y n) s = .next t →
    ∃ u, exec (.drw x y n) t = .next u ∧ sameDisplay s u ∧
      (u.readV vf = 1 ↔ ∃ px py, spriteCovers s x y n px py ∧ pixelOn s.fb px py = false)

/-! ### Keypad and timers -/

/-- R241, R242, with the key index domain of R240 by decision D12 (log 10): `Ex9E` and `ExA1` skip on the level of the key
`V[x]`, and raise when `V[x]` is above 15. -/
def Obligations.SkipOnKey : Prop :=
  ∀ (s : State) (x : Nibble),
    (∀ k : Nibble, (s.readV x).toNat = k.toNat →
      (∃ t, exec (.skp x) s = .next t ∧ t.pc = (if s.key k then s.pc + 4 else s.pc + 2) ∧ onlyRegs [] s t) ∧
      (∃ t, exec (.sknp x) s = .next t ∧ t.pc = (if s.key k then s.pc + 2 else s.pc + 4) ∧ onlyRegs [] s t)) ∧
    (15 < (s.readV x).toNat → exec (.skp x) s = .fault (.undefinedKeyIndex (s.readV x)) ∧
      exec (.sknp x) s = .fault (.undefinedKeyIndex (s.readV x)))

/-- R244, R245, R246: `Fx07` reads DT, `Fx15` writes DT, `Fx18` writes ST; nothing else changes. -/
def Obligations.TimerMoves : Prop :=
  ∀ (s : State) (x : Nibble),
    (∃ t, exec (.ldFromDt x) s = .next t ∧ t.readV x = s.dt ∧ t.pc = s.pc + 2 ∧ onlyRegs [x] s t) ∧
    (∃ t, exec (.ldDt x) s = .next t ∧ t.dt = s.readV x ∧ t.st = s.st ∧ t.i = s.i ∧ t.pc = s.pc + 2 ∧
      sameRegsBut [] s t ∧ sameMemory s t ∧ sameStack s t ∧ sameDisplay s t ∧ sameControl s t ∧ t.draws = s.draws) ∧
    (∃ t, exec (.ldSt x) s = .next t ∧ t.st = s.readV x ∧ t.dt = s.dt ∧ t.i = s.i ∧ t.pc = s.pc + 2 ∧
      sameRegsBut [] s t ∧ sameMemory s t ∧ sameStack s t ∧ sameDisplay s t ∧ sameControl s t ∧ t.draws = s.draws)

/-- R243 (decision D13, log 14): `Fx0A` leaves the machine waiting for a key for `V[x]`, with `pc` advanced and nothing
else changed. -/
def Obligations.KeyWaitBegins : Prop :=
  ∀ (s : State) (x : Nibble), ∃ t, exec (.ldKey x) s = .next t ∧ t.run = .awaitingKey x ∧ t.pc = s.pc + 2 ∧
    sameRegsBut [] s t ∧ sameMemory s t ∧ sameStack s t ∧ sameIAndTimers s t ∧ sameDisplay s t ∧
    (∀ k : Nibble, t.key k = s.key k) ∧ t.legacySl = s.legacySl ∧ t.legacyShift = s.legacyShift ∧ t.draws = s.draws

/-! ### Host operations -/

/-- R129, R130 (the edge is decision D13, log 14): KEY sets one key; on a press edge while waiting it also writes the key
index into `V[x]` and resumes; in every other case nothing else changes. -/
def Obligations.KeyReportsAndEndsTheWait : Prop :=
  ∀ (s : State) (k : Nibble) (pressed : Bool), s.isFaulted = false →
    ∃ t, perform (.key k.toNat pressed) s = .done t .ok ∧ t.key k = pressed ∧
      (∀ j : Nibble, j ≠ k → t.key j = s.key j) ∧
      (∀ x : Nibble, s.run = .awaitingKey x → s.key k = false → pressed = true →
        t.run = .running ∧ (t.readV x).toNat = k.toNat ∧ sameRegsBut [x] s t) ∧
      ((s.run = .running ∨ s.key k = true ∨ pressed = false) → t.run = s.run ∧ sameRegsBut [] s t) ∧
      t.pc = s.pc ∧ sameMemory s t ∧ sameStack s t ∧ sameIAndTimers s t ∧ sameDisplay s t ∧
      t.legacySl = s.legacySl ∧ t.legacyShift = s.legacyShift ∧ t.draws = s.draws

/-- R127 (its extent is decision D15, log 16): LOAD copies the bytes to 512 and up and changes nothing else. -/
def Obligations.LoadCopiesTheProgram : Prop :=
  ∀ (s : State) (bytes : List Byte), s.isFaulted = false → s.mem.wf = true → bytes.length ≤ 3584 →
    ∃ t, perform (.load bytes) s = .done t .ok ∧
      (∀ (k : Nat) (h : k < bytes.length), t.byteAt (512 + k) = bytes[k]) ∧
      (∀ addr, addr < 512 ∨ 512 + bytes.length ≤ addr → t.byteAt addr = s.byteAt addr) ∧
      t.pc = s.pc ∧ sameRegsBut [] s t ∧ sameStack s t ∧ sameIAndTimers s t ∧ sameDisplay s t ∧ sameControl s t ∧
      t.draws = s.draws

/-- R128: an oversize program is LoadError and no state changes. -/
def Obligations.OversizeLoadChangesNothing : Prop :=
  ∀ (s : State) (bytes : List Byte), s.isFaulted = false → 3584 < bytes.length →
    perform (.load bytes) s = .done s .loadError

/-- R274, R275 (the tone test is decision D14, log 15): `n` ticks lower each timer by `n`, stopping at 0, and fire the
tone exactly on the ticks that found `ST > 0`; nothing else changes. -/
def Obligations.TicksCountDownAndFireTones : Prop :=
  ∀ (n : Nat) (s : State), s.isFaulted = false →
    ∃ t, performAll (List.replicate n .tick) s = .ok (t, (List.range n).map fun k => .tone (decide (k < s.st.toNat))) ∧
      t.dt.toNat = s.dt.toNat - n ∧ t.st.toNat = s.st.toNat - n ∧ t.i = s.i ∧ t.pc = s.pc ∧ sameRegsBut [] s t ∧
      sameMemory s t ∧ sameStack s t ∧ sameDisplay s t ∧ sameControl s t ∧ t.draws = s.draws

/-- R131: PIXEL returns `FB[y][x]`, the first argument the column, and changes nothing. -/
def Obligations.PixelReadsTheFramebuffer : Prop :=
  ∀ (s : State) (px : Fin 64) (py : Fin 32), s.isFaulted = false →
    perform (.pixel px.val py.val) s = .done s (.pixel (pixelOn s.fb px py))

/-- R135 (decision D19, log 12): a KEY or PIXEL call outside its domain is refused. -/
def Obligations.CallsOutsideTheirDomainAreRefused : Prop :=
  ∀ s : State,
    (∀ k pressed, 15 < k → perform (.key k pressed) s = .refused (.keyOutsideDomain k)) ∧
    (∀ px py, 63 < px ∨ 31 < py → perform (.pixel px py) s = .refused (.pixelOutsideDomain px py))

/-- R301: after RESET `pc = 512` and `RUN = Running`, with any glyphs and flags, and so at the model's `State.reset`. -/
def Obligations.EntryPointIs512 : Prop :=
  (∀ (glyphs : Vector Byte 80) (sl shift : Bool),
    (State.construct glyphs sl shift).pc = 512 ∧ (State.construct glyphs sl shift).run = .running) ∧
  State.reset.pc = 512 ∧ State.reset.run = .running

/-- R36: RESET puts the glyph bytes at 0..79, sets the flags to its arguments and empties the stack; the zeros of every
other part are the spec's decision D2 (log 1, log 2). `State.reset` is RESET with the default glyph table and both flags
clear, which are the model's choice (log 3, log 5). -/
def Obligations.ResetValues : Prop :=
  (∀ (glyphs : Vector Byte 80) (sl shift : Bool) (s : State), s = State.construct glyphs sl shift →
    (∀ k : Fin 80, s.byteAt k.val = glyphs[k]) ∧ (∀ addr, 80 ≤ addr → s.byteAt addr = 0) ∧
    s.sp.val = 0 ∧ s.legacySl = sl ∧ s.legacyShift = shift ∧ (∀ x : Nibble, s.readV x = 0) ∧ s.i = 0 ∧ s.dt = 0 ∧
    s.st = 0 ∧ (∀ px py, pixelOn s.fb px py = false) ∧ (∀ k : Nibble, s.key k = false)) ∧
  (∀ (glyphs : Vector Byte 80), glyphs.toList = defaultGlyphs → State.reset = State.construct glyphs false false)

/-- R35: the host's view of KEYS shows what it last reported. After KEY it shows the report at that key and every other
key as before; and no other operation but RESET changes it while the machine is not faulted (R31). That the read is a view
of the state, not an operation, is the model's choice (log 23). -/
def Obligations.KeysReadBackAsReported : Prop :=
  (∀ (s : State) (k : Nibble), (readBackKeys s)[k.toNat]'k.isLt = s.key k) ∧
  (∀ (s : State) (k : Nibble) (pressed : Bool), s.isFaulted = false → ∃ t,
    perform (.key k.toNat pressed) s = .done t .ok ∧ (readBackKeys t)[k.toNat]'k.isLt = pressed ∧
    ∀ j : Nibble, j ≠ k → (readBackKeys t)[j.toNat]'j.isLt = (readBackKeys s)[j.toNat]'j.isLt) ∧
  (∀ (op : HostOp) (s t : State) (r : Reply), (∀ k pressed, op ≠ .key k pressed) →
    (∀ glyphs sl shift, op ≠ .reset glyphs sl shift) → perform op s = .done t r → t.isFaulted = false →
    readBackKeys t = readBackKeys s)

/-- From R35 and R136: a STEP shows the host `Ok` or its fatal cause and nothing else; what any other operation shows
depends on nothing but the operation, the pixels, whether the machine is faulted and whether ST is 0; and the view of KEYS
shows the keys alone. So registers, `I`, DT, `pc`, the stack and memory have no read port. That TICK asks whether ST is 0
before the decrement is the spec's decision D14 (log 15); what a faulted machine answers and that KEYS is seen by a view
are the model's choices (log 12, log 23). -/
def Obligations.HostObservesOnlyItsPorts : Prop :=
  (∀ s : State, replyOf (perform .step s) = .ok .ok ∨ ∃ c, replyOf (perform .step s) = .ok (.fatal c)) ∧
  (∀ (op : HostOp) (s t : State), op ≠ .step → t.isFaulted = s.isFaulted → (t.st = 0 ↔ s.st = 0) → sameDisplay s t →
    replyOf (perform op t) = replyOf (perform op s)) ∧
  (∀ s t : State, (∀ k : Nibble, t.key k = s.key k) → readBackKeys t = readBackKeys s)
end

