-- ==== Sys2Proof/Laws/Decode.lean ====
section
/-! SUPPORT. Fields, words and bytes as numbers, so that questions of encoding become linear arithmetic, and the three
masks of the opcode map in the same terms. -/

namespace Sys2Proof

/-- Concatenation as a number: the high part counts `2^m`. -/
theorem append_toNat {n m : Nat} (a : BitVec n) (b : BitVec m) : (a ++ b).toNat = a.toNat * 2 ^ m + b.toNat := by
  rw [BitVec.toNat_append, Nat.shiftLeft_eq, Nat.mul_comm, ← Nat.two_pow_add_eq_or_of_lt b.isLt]

/-- A slice as a number: quotient, then remainder. -/
theorem slice_toNat {w : Nat} (v : BitVec w) (s len : Nat) :
    (v.extractLsb' s len).toNat = v.toNat / 2 ^ s % 2 ^ len := by
  rw [BitVec.extractLsb'_toNat, Nat.shiftRight_eq_div_pow]

theorem fieldOp_toNat (w : Word) : (fieldOp w).toNat = w.toNat / 4096 := by
  have := w.isLt
  rw [fieldOp, slice_toNat]; omega

theorem fieldX_toNat (w : Word) : (fieldX w).toNat = w.toNat / 256 % 16 := slice_toNat w 8 4

theorem fieldY_toNat (w : Word) : (fieldY w).toNat = w.toNat / 16 % 16 := slice_toNat w 4 4

theorem fieldN_toNat (w : Word) : (fieldN w).toNat = w.toNat % 16 := by rw [fieldN, slice_toNat]; omega

theorem fieldKk_toNat (w : Word) : (fieldKk w).toNat = w.toNat % 256 := by rw [fieldKk, slice_toNat]; omega

theorem fieldNnn_toNat (w : Word) : (fieldNnn w).toNat = w.toNat % 4096 := by rw [fieldNnn, slice_toNat]; omega

/-- Splitting a word into its two bytes and composing them again is the identity. -/
@[simp] theorem composeWord_bytes (w : Word) : composeWord (highByte w) (lowByte w) = w := by
  apply BitVec.eq_of_toNat_eq
  have := w.isLt
  rw [composeWord, highByte, lowByte, append_toNat, slice_toNat, slice_toNat]
  omega

@[simp] theorem highByte_append (hi lo : Byte) : highByte (hi ++ lo) = hi := by
  apply BitVec.eq_of_toNat_eq
  have := hi.isLt
  have := lo.isLt
  rw [highByte, slice_toNat, append_toNat]
  omega

@[simp] theorem lowByte_append (hi lo : Byte) : lowByte (hi ++ lo) = lo := by
  apply BitVec.eq_of_toNat_eq
  have := hi.isLt
  have := lo.isLt
  rw [lowByte, slice_toNat, append_toNat]
  omega

/-- The decoder reads a word from its two bytes, high byte first. -/
@[simp] theorem decode_bytes (w : Word) (rest : List Byte) :
    decode (highByte w :: lowByte w :: rest) = (decodeWord w).map fun i => (i, rest) := by
  rw [decode, composeWord_bytes]

/-- The table's word of 16 bits is decoded as it stands. -/
theorem decodeTableWord_eq (w : Nat) : decodeTableWord 16 w = decodeWord (BitVec.ofNat 16 w) := by
  have : BitVec.ofNat 16 (w % 2 ^ 16) = BitVec.ofNat 16 w := by
    apply BitVec.eq_of_toNat_eq; simp
  unfold decodeTableWord
  simp only [this, decode_bytes, Option.map_map]
  cases decodeWord (BitVec.ofNat 16 w) <;> rfl

/-- `1nnn` and the other words of format NNN. -/
theorem formatNnn_toNat (op : Nibble) (nnn : Addr12) : (op ++ nnn : Word).toNat = op.toNat * 4096 + nnn.toNat :=
  append_toNat op nnn

/-- The words of formats XKK and XSS. -/
theorem formatXkk_toNat (op x : Nibble) (kk : Byte) :
    (op ++ x ++ kk : Word).toNat = op.toNat * 4096 + x.toNat * 256 + kk.toNat := by
  rw [append_toNat, append_toNat]; omega

/-- The words of format XYN. -/
theorem formatXyn_toNat (op x y n : Nibble) :
    (op ++ x ++ y ++ n : Word).toNat = op.toNat * 4096 + x.toNat * 256 + y.toNat * 16 + n.toNat := by
  rw [append_toNat, append_toNat, append_toNat]; omega

/-! The fields of a word written in each format (30_encoding.md R91, R92). -/

@[simp] theorem fieldOp_nnn (op : Nibble) (nnn : Addr12) : fieldOp (op ++ nnn : Word) = op := by
  have := op.isLt
  have := nnn.isLt
  apply BitVec.eq_of_toNat_eq
  rw [fieldOp_toNat, formatNnn_toNat]
  omega

@[simp] theorem fieldNnn_nnn (op : Nibble) (nnn : Addr12) : fieldNnn (op ++ nnn : Word) = nnn := by
  have := op.isLt
  have := nnn.isLt
  apply BitVec.eq_of_toNat_eq
  rw [fieldNnn_toNat, formatNnn_toNat]
  omega

@[simp] theorem fieldOp_xkk (op x : Nibble) (kk : Byte) : fieldOp (op ++ x ++ kk : Word) = op := by
  have := op.isLt
  have := x.isLt
  have := kk.isLt
  apply BitVec.eq_of_toNat_eq
  rw [fieldOp_toNat, formatXkk_toNat]
  omega

@[simp] theorem fieldX_xkk (op x : Nibble) (kk : Byte) : fieldX (op ++ x ++ kk : Word) = x := by
  have := op.isLt
  have := x.isLt
  have := kk.isLt
  apply BitVec.eq_of_toNat_eq
  rw [fieldX_toNat, formatXkk_toNat]
  omega

@[simp] theorem fieldKk_xkk (op x : Nibble) (kk : Byte) : fieldKk (op ++ x ++ kk : Word) = kk := by
  have := op.isLt
  have := x.isLt
  have := kk.isLt
  apply BitVec.eq_of_toNat_eq
  rw [fieldKk_toNat, formatXkk_toNat]
  omega

@[simp] theorem fieldOp_xyn (op x y n : Nibble) : fieldOp (op ++ x ++ y ++ n : Word) = op := by
  have := op.isLt
  have := x.isLt
  have := y.isLt
  have := n.isLt
  apply BitVec.eq_of_toNat_eq
  rw [fieldOp_toNat, formatXyn_toNat]
  omega

@[simp] theorem fieldX_xyn (op x y n : Nibble) : fieldX (op ++ x ++ y ++ n : Word) = x := by
  have := op.isLt
  have := x.isLt
  have := y.isLt
  have := n.isLt
  apply BitVec.eq_of_toNat_eq
  rw [fieldX_toNat, formatXyn_toNat]
  omega

@[simp] theorem fieldY_xyn (op x y n : Nibble) : fieldY (op ++ x ++ y ++ n : Word) = y := by
  have := op.isLt
  have := x.isLt
  have := y.isLt
  have := n.isLt
  apply BitVec.eq_of_toNat_eq
  rw [fieldY_toNat, formatXyn_toNat]
  omega

@[simp] theorem fieldN_xyn (op x y n : Nibble) : fieldN (op ++ x ++ y ++ n : Word) = n := by
  have := op.isLt
  have := x.isLt
  have := y.isLt
  have := n.isLt
  apply BitVec.eq_of_toNat_eq
  rw [fieldN_toNat, formatXyn_toNat]
  omega

/-- A word is its fields in format NNN. -/
theorem word_eq_nnn (w : Word) : w = fieldOp w ++ fieldNnn w := by
  apply BitVec.eq_of_toNat_eq
  rw [formatNnn_toNat, fieldOp_toNat, fieldNnn_toNat]
  omega

/-- A word is its fields in format XKK. -/
theorem word_eq_xkk (w : Word) : w = fieldOp w ++ fieldX w ++ fieldKk w := by
  apply BitVec.eq_of_toNat_eq
  rw [formatXkk_toNat, fieldOp_toNat, fieldX_toNat, fieldKk_toNat]
  omega

/-- A word is its fields in format XYN. -/
theorem word_eq_xyn (w : Word) : w = fieldOp w ++ fieldX w ++ fieldY w ++ fieldN w := by
  apply BitVec.eq_of_toNat_eq
  rw [formatXyn_toNat, fieldOp_toNat, fieldX_toNat, fieldY_toNat, fieldN_toNat]
  omega

/-! The dispatch on `op`, one equation per group (30_encoding.md R94). -/

/-- A nibble is one of the sixteen digits. -/
theorem nibble_cases (o : Nibble) : o = 0x0#4 ∨ o = 0x1#4 ∨ o = 0x2#4 ∨ o = 0x3#4 ∨ o = 0x4#4 ∨ o = 0x5#4 ∨ o = 0x6#4 ∨ o = 0x7#4 ∨
    o = 0x8#4 ∨ o = 0x9#4 ∨ o = 0xA#4 ∨ o = 0xB#4 ∨ o = 0xC#4 ∨ o = 0xD#4 ∨ o = 0xE#4 ∨ o = 0xF#4 := by
  have := o.isLt
  simp only [← BitVec.toNat_inj, BitVec.toNat_ofNat]
  omega

theorem decodeWord_op0 {w : Word} (h : fieldOp w = 0x0#4) : decodeWord w = decodeGroup0 w := by
  simp [decodeWord, h]

theorem decodeWord_op1 {w : Word} (h : fieldOp w = 0x1#4) : decodeWord w = some (.jp (fieldNnn w)) := by
  simp [decodeWord, h]

theorem decodeWord_op2 {w : Word} (h : fieldOp w = 0x2#4) : decodeWord w = some (.call (fieldNnn w)) := by
  simp [decodeWord, h]

theorem decodeWord_op3 {w : Word} (h : fieldOp w = 0x3#4) : decodeWord w = some (.seImm (fieldX w) (fieldKk w)) := by
  simp [decodeWord, h]

theorem decodeWord_op4 {w : Word} (h : fieldOp w = 0x4#4) : decodeWord w = some (.sneImm (fieldX w) (fieldKk w)) := by
  simp [decodeWord, h]

theorem decodeWord_op5 {w : Word} (h : fieldOp w = 0x5#4) : decodeWord w = decodeGroup5 w := by
  simp [decodeWord, h]

theorem decodeWord_op6 {w : Word} (h : fieldOp w = 0x6#4) : decodeWord w = some (.ldImm (fieldX w) (fieldKk w)) := by
  simp [decodeWord, h]

theorem decodeWord_op7 {w : Word} (h : fieldOp w = 0x7#4) : decodeWord w = some (.addImm (fieldX w) (fieldKk w)) := by
  simp [decodeWord, h]

theorem decodeWord_op8 {w : Word} (h : fieldOp w = 0x8#4) : decodeWord w = decodeGroup8 w := by
  simp [decodeWord, h]

theorem decodeWord_op9 {w : Word} (h : fieldOp w = 0x9#4) : decodeWord w = decodeGroup9 w := by
  simp [decodeWord, h]

theorem decodeWord_opA {w : Word} (h : fieldOp w = 0xA#4) : decodeWord w = some (.ldI (fieldNnn w)) := by
  simp [decodeWord, h]

theorem decodeWord_opB {w : Word} (h : fieldOp w = 0xB#4) : decodeWord w = some (.jpV0 (fieldNnn w)) := by
  simp [decodeWord, h]

theorem decodeWord_opC {w : Word} (h : fieldOp w = 0xC#4) : decodeWord w = some (.rnd (fieldX w) (fieldKk w)) := by
  simp [decodeWord, h]

theorem decodeWord_opD {w : Word} (h : fieldOp w = 0xD#4) : decodeWord w = some (.drw (fieldX w) (fieldY w) (fieldN w)) := by
  simp [decodeWord, h]

theorem decodeWord_opE {w : Word} (h : fieldOp w = 0xE#4) : decodeWord w = decodeGroupE w := by
  simp [decodeWord, h]

theorem decodeWord_opF {w : Word} (h : fieldOp w = 0xF#4) : decodeWord w = decodeGroupF w := by
  simp [decodeWord, h]

/-- Under the mask 0xF000 a word is its field `op`. -/
theorem maskOp_eq (w : Word) : w &&& 0xF000#16 = fieldOp w ++ 0#12 := by
  apply BitVec.eq_of_getLsbD_eq
  intro i hi
  simp only [BitVec.getLsbD_and, BitVec.getLsbD_append, BitVec.getLsbD_extractLsb', fieldOp]
  interval_cases i <;> simp

/-- Under the mask 0xF00F a word is its fields `op` and `n`. -/
theorem maskOpN_eq (w : Word) : w &&& 0xF00F#16 = fieldOp w ++ 0#8 ++ fieldN w := by
  apply BitVec.eq_of_getLsbD_eq
  intro i hi
  simp only [BitVec.getLsbD_and, BitVec.getLsbD_append, BitVec.getLsbD_extractLsb', fieldOp, fieldN]
  interval_cases i <;> simp

/-- Under the mask 0xF0FF a word is its fields `op` and `kk`. -/
theorem maskOpKk_eq (w : Word) : w &&& 0xF0FF#16 = fieldOp w ++ 0#4 ++ fieldKk w := by
  apply BitVec.eq_of_getLsbD_eq
  intro i hi
  simp only [BitVec.getLsbD_and, BitVec.getLsbD_append, BitVec.getLsbD_extractLsb', fieldOp, fieldKk]
  interval_cases i <;> simp

/-- The three masks as numbers. -/
theorem maskOp_toNat (w : Word) : (w &&& 0xF000#16).toNat = w.toNat / 4096 * 4096 := by
  rw [maskOp_eq, append_toNat, fieldOp_toNat]; simp

theorem maskOpN_toNat (w : Word) : (w &&& 0xF00F#16).toNat = w.toNat / 4096 * 4096 + w.toNat % 16 := by
  rw [maskOpN_eq, append_toNat, append_toNat, fieldOp_toNat, fieldN_toNat]; simp; omega

theorem maskOpKk_toNat (w : Word) : (w &&& 0xF0FF#16).toNat = w.toNat / 4096 * 4096 + w.toNat % 256 := by
  rw [maskOpKk_eq, append_toNat, append_toNat, fieldOp_toNat, fieldKk_toNat]; simp; omega

end Sys2Proof
end

