-- ==== Sys2Proof/Laws/State.lean ====
section
/-! SUPPORT. One lemma per field per update of State, true by rfl, so that no proof unfolds a record update; then what
each accessor reads after each update. -/

namespace Sys2Proof.Machine

variable (s : State)

@[simp] theorem State.setV_v (x : Nibble) (b : Byte) : (s.setV x b).v = s.v.set x.toNat b x.isLt := rfl
@[simp] theorem State.setV_i (x : Nibble) (b : Byte) : (s.setV x b).i = s.i := rfl
@[simp] theorem State.setV_dt (x : Nibble) (b : Byte) : (s.setV x b).dt = s.dt := rfl
@[simp] theorem State.setV_st (x : Nibble) (b : Byte) : (s.setV x b).st = s.st := rfl
@[simp] theorem State.setV_pc (x : Nibble) (b : Byte) : (s.setV x b).pc = s.pc := rfl
@[simp] theorem State.setV_stack (x : Nibble) (b : Byte) : (s.setV x b).stack = s.stack := rfl
@[simp] theorem State.setV_sp (x : Nibble) (b : Byte) : (s.setV x b).sp = s.sp := rfl
@[simp] theorem State.setV_mem (x : Nibble) (b : Byte) : (s.setV x b).mem = s.mem := rfl
@[simp] theorem State.setV_fb (x : Nibble) (b : Byte) : (s.setV x b).fb = s.fb := rfl
@[simp] theorem State.setV_keys (x : Nibble) (b : Byte) : (s.setV x b).keys = s.keys := rfl
@[simp] theorem State.setV_run (x : Nibble) (b : Byte) : (s.setV x b).run = s.run := rfl
@[simp] theorem State.setV_legacySl (x : Nibble) (b : Byte) : (s.setV x b).legacySl = s.legacySl := rfl
@[simp] theorem State.setV_legacyShift (x : Nibble) (b : Byte) : (s.setV x b).legacyShift = s.legacyShift := rfl
@[simp] theorem State.setV_draws (x : Nibble) (b : Byte) : (s.setV x b).draws = s.draws := rfl

@[simp] theorem State.setVPrefix_v (bytes : List Byte) : (s.setVPrefix bytes).v = overwritePrefix s.v bytes := rfl
@[simp] theorem State.setVPrefix_i (bytes : List Byte) : (s.setVPrefix bytes).i = s.i := by rw [State.setVPrefix]
@[simp] theorem State.setVPrefix_dt (bytes : List Byte) : (s.setVPrefix bytes).dt = s.dt := by rw [State.setVPrefix]
@[simp] theorem State.setVPrefix_st (bytes : List Byte) : (s.setVPrefix bytes).st = s.st := by rw [State.setVPrefix]
@[simp] theorem State.setVPrefix_pc (bytes : List Byte) : (s.setVPrefix bytes).pc = s.pc := by rw [State.setVPrefix]
@[simp] theorem State.setVPrefix_stack (bytes : List Byte) : (s.setVPrefix bytes).stack = s.stack := by rw [State.setVPrefix]
@[simp] theorem State.setVPrefix_sp (bytes : List Byte) : (s.setVPrefix bytes).sp = s.sp := by rw [State.setVPrefix]
@[simp] theorem State.setVPrefix_mem (bytes : List Byte) : (s.setVPrefix bytes).mem = s.mem := by rw [State.setVPrefix]
@[simp] theorem State.setVPrefix_fb (bytes : List Byte) : (s.setVPrefix bytes).fb = s.fb := by rw [State.setVPrefix]
@[simp] theorem State.setVPrefix_keys (bytes : List Byte) : (s.setVPrefix bytes).keys = s.keys := by rw [State.setVPrefix]
@[simp] theorem State.setVPrefix_run (bytes : List Byte) : (s.setVPrefix bytes).run = s.run := by rw [State.setVPrefix]
@[simp] theorem State.setVPrefix_legacySl (bytes : List Byte) : (s.setVPrefix bytes).legacySl = s.legacySl := by rw [State.setVPrefix]
@[simp] theorem State.setVPrefix_legacyShift (bytes : List Byte) : (s.setVPrefix bytes).legacyShift = s.legacyShift := by rw [State.setVPrefix]
@[simp] theorem State.setVPrefix_draws (bytes : List Byte) : (s.setVPrefix bytes).draws = s.draws := by rw [State.setVPrefix]

@[simp] theorem State.setI_v (w : Word) : (s.setI w).v = s.v := rfl
@[simp] theorem State.setI_i (w : Word) : (s.setI w).i = w := rfl
@[simp] theorem State.setI_dt (w : Word) : (s.setI w).dt = s.dt := rfl
@[simp] theorem State.setI_st (w : Word) : (s.setI w).st = s.st := rfl
@[simp] theorem State.setI_pc (w : Word) : (s.setI w).pc = s.pc := rfl
@[simp] theorem State.setI_stack (w : Word) : (s.setI w).stack = s.stack := rfl
@[simp] theorem State.setI_sp (w : Word) : (s.setI w).sp = s.sp := rfl
@[simp] theorem State.setI_mem (w : Word) : (s.setI w).mem = s.mem := rfl
@[simp] theorem State.setI_fb (w : Word) : (s.setI w).fb = s.fb := rfl
@[simp] theorem State.setI_keys (w : Word) : (s.setI w).keys = s.keys := rfl
@[simp] theorem State.setI_run (w : Word) : (s.setI w).run = s.run := rfl
@[simp] theorem State.setI_legacySl (w : Word) : (s.setI w).legacySl = s.legacySl := rfl
@[simp] theorem State.setI_legacyShift (w : Word) : (s.setI w).legacyShift = s.legacyShift := rfl
@[simp] theorem State.setI_draws (w : Word) : (s.setI w).draws = s.draws := rfl

@[simp] theorem State.setDt_v (b : Byte) : (s.setDt b).v = s.v := rfl
@[simp] theorem State.setDt_i (b : Byte) : (s.setDt b).i = s.i := rfl
@[simp] theorem State.setDt_dt (b : Byte) : (s.setDt b).dt = b := rfl
@[simp] theorem State.setDt_st (b : Byte) : (s.setDt b).st = s.st := rfl
@[simp] theorem State.setDt_pc (b : Byte) : (s.setDt b).pc = s.pc := rfl
@[simp] theorem State.setDt_stack (b : Byte) : (s.setDt b).stack = s.stack := rfl
@[simp] theorem State.setDt_sp (b : Byte) : (s.setDt b).sp = s.sp := rfl
@[simp] theorem State.setDt_mem (b : Byte) : (s.setDt b).mem = s.mem := rfl
@[simp] theorem State.setDt_fb (b : Byte) : (s.setDt b).fb = s.fb := rfl
@[simp] theorem State.setDt_keys (b : Byte) : (s.setDt b).keys = s.keys := rfl
@[simp] theorem State.setDt_run (b : Byte) : (s.setDt b).run = s.run := rfl
@[simp] theorem State.setDt_legacySl (b : Byte) : (s.setDt b).legacySl = s.legacySl := rfl
@[simp] theorem State.setDt_legacyShift (b : Byte) : (s.setDt b).legacyShift = s.legacyShift := rfl
@[simp] theorem State.setDt_draws (b : Byte) : (s.setDt b).draws = s.draws := rfl

@[simp] theorem State.setSt_v (b : Byte) : (s.setSt b).v = s.v := rfl
@[simp] theorem State.setSt_i (b : Byte) : (s.setSt b).i = s.i := rfl
@[simp] theorem State.setSt_dt (b : Byte) : (s.setSt b).dt = s.dt := rfl
@[simp] theorem State.setSt_st (b : Byte) : (s.setSt b).st = b := rfl
@[simp] theorem State.setSt_pc (b : Byte) : (s.setSt b).pc = s.pc := rfl
@[simp] theorem State.setSt_stack (b : Byte) : (s.setSt b).stack = s.stack := rfl
@[simp] theorem State.setSt_sp (b : Byte) : (s.setSt b).sp = s.sp := rfl
@[simp] theorem State.setSt_mem (b : Byte) : (s.setSt b).mem = s.mem := rfl
@[simp] theorem State.setSt_fb (b : Byte) : (s.setSt b).fb = s.fb := rfl
@[simp] theorem State.setSt_keys (b : Byte) : (s.setSt b).keys = s.keys := rfl
@[simp] theorem State.setSt_run (b : Byte) : (s.setSt b).run = s.run := rfl
@[simp] theorem State.setSt_legacySl (b : Byte) : (s.setSt b).legacySl = s.legacySl := rfl
@[simp] theorem State.setSt_legacyShift (b : Byte) : (s.setSt b).legacyShift = s.legacyShift := rfl
@[simp] theorem State.setSt_draws (b : Byte) : (s.setSt b).draws = s.draws := rfl

@[simp] theorem State.setPc_v (w : Word) : (s.setPc w).v = s.v := rfl
@[simp] theorem State.setPc_i (w : Word) : (s.setPc w).i = s.i := rfl
@[simp] theorem State.setPc_dt (w : Word) : (s.setPc w).dt = s.dt := rfl
@[simp] theorem State.setPc_st (w : Word) : (s.setPc w).st = s.st := rfl
@[simp] theorem State.setPc_pc (w : Word) : (s.setPc w).pc = w := rfl
@[simp] theorem State.setPc_stack (w : Word) : (s.setPc w).stack = s.stack := rfl
@[simp] theorem State.setPc_sp (w : Word) : (s.setPc w).sp = s.sp := rfl
@[simp] theorem State.setPc_mem (w : Word) : (s.setPc w).mem = s.mem := rfl
@[simp] theorem State.setPc_fb (w : Word) : (s.setPc w).fb = s.fb := rfl
@[simp] theorem State.setPc_keys (w : Word) : (s.setPc w).keys = s.keys := rfl
@[simp] theorem State.setPc_run (w : Word) : (s.setPc w).run = s.run := rfl
@[simp] theorem State.setPc_legacySl (w : Word) : (s.setPc w).legacySl = s.legacySl := rfl
@[simp] theorem State.setPc_legacyShift (w : Word) : (s.setPc w).legacyShift = s.legacyShift := rfl
@[simp] theorem State.setPc_draws (w : Word) : (s.setPc w).draws = s.draws := rfl

@[simp] theorem State.advance_v : (s.advance).v = s.v := rfl
@[simp] theorem State.advance_i : (s.advance).i = s.i := rfl
@[simp] theorem State.advance_dt : (s.advance).dt = s.dt := rfl
@[simp] theorem State.advance_st : (s.advance).st = s.st := rfl
@[simp] theorem State.advance_pc : (s.advance).pc = s.pc + 2 := rfl
@[simp] theorem State.advance_stack : (s.advance).stack = s.stack := rfl
@[simp] theorem State.advance_sp : (s.advance).sp = s.sp := rfl
@[simp] theorem State.advance_mem : (s.advance).mem = s.mem := rfl
@[simp] theorem State.advance_fb : (s.advance).fb = s.fb := rfl
@[simp] theorem State.advance_keys : (s.advance).keys = s.keys := rfl
@[simp] theorem State.advance_run : (s.advance).run = s.run := rfl
@[simp] theorem State.advance_legacySl : (s.advance).legacySl = s.legacySl := rfl
@[simp] theorem State.advance_legacyShift : (s.advance).legacyShift = s.legacyShift := rfl
@[simp] theorem State.advance_draws : (s.advance).draws = s.draws := rfl

@[simp] theorem State.setStack_v (entries : Vector Word 16) (count : Fin 17) : (s.setStack entries count).v = s.v := rfl
@[simp] theorem State.setStack_i (entries : Vector Word 16) (count : Fin 17) : (s.setStack entries count).i = s.i := rfl
@[simp] theorem State.setStack_dt (entries : Vector Word 16) (count : Fin 17) : (s.setStack entries count).dt = s.dt := rfl
@[simp] theorem State.setStack_st (entries : Vector Word 16) (count : Fin 17) : (s.setStack entries count).st = s.st := rfl
@[simp] theorem State.setStack_pc (entries : Vector Word 16) (count : Fin 17) : (s.setStack entries count).pc = s.pc := rfl
@[simp] theorem State.setStack_stack (entries : Vector Word 16) (count : Fin 17) : (s.setStack entries count).stack = entries := rfl
@[simp] theorem State.setStack_sp (entries : Vector Word 16) (count : Fin 17) : (s.setStack entries count).sp = count := rfl
@[simp] theorem State.setStack_mem (entries : Vector Word 16) (count : Fin 17) : (s.setStack entries count).mem = s.mem := rfl
@[simp] theorem State.setStack_fb (entries : Vector Word 16) (count : Fin 17) : (s.setStack entries count).fb = s.fb := rfl
@[simp] theorem State.setStack_keys (entries : Vector Word 16) (count : Fin 17) : (s.setStack entries count).keys = s.keys := rfl
@[simp] theorem State.setStack_run (entries : Vector Word 16) (count : Fin 17) : (s.setStack entries count).run = s.run := rfl
@[simp] theorem State.setStack_legacySl (entries : Vector Word 16) (count : Fin 17) : (s.setStack entries count).legacySl = s.legacySl := rfl
@[simp] theorem State.setStack_legacyShift (entries : Vector Word 16) (count : Fin 17) : (s.setStack entries count).legacyShift = s.legacyShift := rfl
@[simp] theorem State.setStack_draws (entries : Vector Word 16) (count : Fin 17) : (s.setStack entries count).draws = s.draws := rfl

@[simp] theorem State.setMem_v (m : Memory) : (s.setMem m).v = s.v := rfl
@[simp] theorem State.setMem_i (m : Memory) : (s.setMem m).i = s.i := rfl
@[simp] theorem State.setMem_dt (m : Memory) : (s.setMem m).dt = s.dt := rfl
@[simp] theorem State.setMem_st (m : Memory) : (s.setMem m).st = s.st := rfl
@[simp] theorem State.setMem_pc (m : Memory) : (s.setMem m).pc = s.pc := rfl
@[simp] theorem State.setMem_stack (m : Memory) : (s.setMem m).stack = s.stack := rfl
@[simp] theorem State.setMem_sp (m : Memory) : (s.setMem m).sp = s.sp := rfl
@[simp] theorem State.setMem_mem (m : Memory) : (s.setMem m).mem = m := rfl
@[simp] theorem State.setMem_fb (m : Memory) : (s.setMem m).fb = s.fb := rfl
@[simp] theorem State.setMem_keys (m : Memory) : (s.setMem m).keys = s.keys := rfl
@[simp] theorem State.setMem_run (m : Memory) : (s.setMem m).run = s.run := rfl
@[simp] theorem State.setMem_legacySl (m : Memory) : (s.setMem m).legacySl = s.legacySl := rfl
@[simp] theorem State.setMem_legacyShift (m : Memory) : (s.setMem m).legacyShift = s.legacyShift := rfl
@[simp] theorem State.setMem_draws (m : Memory) : (s.setMem m).draws = s.draws := rfl

@[simp] theorem State.setFb_v (fb : Framebuffer) : (s.setFb fb).v = s.v := rfl
@[simp] theorem State.setFb_i (fb : Framebuffer) : (s.setFb fb).i = s.i := rfl
@[simp] theorem State.setFb_dt (fb : Framebuffer) : (s.setFb fb).dt = s.dt := rfl
@[simp] theorem State.setFb_st (fb : Framebuffer) : (s.setFb fb).st = s.st := rfl
@[simp] theorem State.setFb_pc (fb : Framebuffer) : (s.setFb fb).pc = s.pc := rfl
@[simp] theorem State.setFb_stack (fb : Framebuffer) : (s.setFb fb).stack = s.stack := rfl
@[simp] theorem State.setFb_sp (fb : Framebuffer) : (s.setFb fb).sp = s.sp := rfl
@[simp] theorem State.setFb_mem (fb : Framebuffer) : (s.setFb fb).mem = s.mem := rfl
@[simp] theorem State.setFb_fb (fb : Framebuffer) : (s.setFb fb).fb = fb := rfl
@[simp] theorem State.setFb_keys (fb : Framebuffer) : (s.setFb fb).keys = s.keys := rfl
@[simp] theorem State.setFb_run (fb : Framebuffer) : (s.setFb fb).run = s.run := rfl
@[simp] theorem State.setFb_legacySl (fb : Framebuffer) : (s.setFb fb).legacySl = s.legacySl := rfl
@[simp] theorem State.setFb_legacyShift (fb : Framebuffer) : (s.setFb fb).legacyShift = s.legacyShift := rfl
@[simp] theorem State.setFb_draws (fb : Framebuffer) : (s.setFb fb).draws = s.draws := rfl

@[simp] theorem State.setKey_v (k : Nibble) (pressed : Bool) : (s.setKey k pressed).v = s.v := rfl
@[simp] theorem State.setKey_i (k : Nibble) (pressed : Bool) : (s.setKey k pressed).i = s.i := rfl
@[simp] theorem State.setKey_dt (k : Nibble) (pressed : Bool) : (s.setKey k pressed).dt = s.dt := rfl
@[simp] theorem State.setKey_st (k : Nibble) (pressed : Bool) : (s.setKey k pressed).st = s.st := rfl
@[simp] theorem State.setKey_pc (k : Nibble) (pressed : Bool) : (s.setKey k pressed).pc = s.pc := rfl
@[simp] theorem State.setKey_stack (k : Nibble) (pressed : Bool) : (s.setKey k pressed).stack = s.stack := rfl
@[simp] theorem State.setKey_sp (k : Nibble) (pressed : Bool) : (s.setKey k pressed).sp = s.sp := rfl
@[simp] theorem State.setKey_mem (k : Nibble) (pressed : Bool) : (s.setKey k pressed).mem = s.mem := rfl
@[simp] theorem State.setKey_fb (k : Nibble) (pressed : Bool) : (s.setKey k pressed).fb = s.fb := rfl
@[simp] theorem State.setKey_keys (k : Nibble) (pressed : Bool) : (s.setKey k pressed).keys = s.keys.set k.toNat pressed k.isLt := rfl
@[simp] theorem State.setKey_run (k : Nibble) (pressed : Bool) : (s.setKey k pressed).run = s.run := rfl
@[simp] theorem State.setKey_legacySl (k : Nibble) (pressed : Bool) : (s.setKey k pressed).legacySl = s.legacySl := rfl
@[simp] theorem State.setKey_legacyShift (k : Nibble) (pressed : Bool) : (s.setKey k pressed).legacyShift = s.legacyShift := rfl
@[simp] theorem State.setKey_draws (k : Nibble) (pressed : Bool) : (s.setKey k pressed).draws = s.draws := rfl

@[simp] theorem State.setRun_v (r : Run) : (s.setRun r).v = s.v := rfl
@[simp] theorem State.setRun_i (r : Run) : (s.setRun r).i = s.i := rfl
@[simp] theorem State.setRun_dt (r : Run) : (s.setRun r).dt = s.dt := rfl
@[simp] theorem State.setRun_st (r : Run) : (s.setRun r).st = s.st := rfl
@[simp] theorem State.setRun_pc (r : Run) : (s.setRun r).pc = s.pc := rfl
@[simp] theorem State.setRun_stack (r : Run) : (s.setRun r).stack = s.stack := rfl
@[simp] theorem State.setRun_sp (r : Run) : (s.setRun r).sp = s.sp := rfl
@[simp] theorem State.setRun_mem (r : Run) : (s.setRun r).mem = s.mem := rfl
@[simp] theorem State.setRun_fb (r : Run) : (s.setRun r).fb = s.fb := rfl
@[simp] theorem State.setRun_keys (r : Run) : (s.setRun r).keys = s.keys := rfl
@[simp] theorem State.setRun_run (r : Run) : (s.setRun r).run = r := rfl
@[simp] theorem State.setRun_legacySl (r : Run) : (s.setRun r).legacySl = s.legacySl := rfl
@[simp] theorem State.setRun_legacyShift (r : Run) : (s.setRun r).legacyShift = s.legacyShift := rfl
@[simp] theorem State.setRun_draws (r : Run) : (s.setRun r).draws = s.draws := rfl

@[simp] theorem State.countDraw_v : (s.countDraw).v = s.v := rfl
@[simp] theorem State.countDraw_i : (s.countDraw).i = s.i := rfl
@[simp] theorem State.countDraw_dt : (s.countDraw).dt = s.dt := rfl
@[simp] theorem State.countDraw_st : (s.countDraw).st = s.st := rfl
@[simp] theorem State.countDraw_pc : (s.countDraw).pc = s.pc := rfl
@[simp] theorem State.countDraw_stack : (s.countDraw).stack = s.stack := rfl
@[simp] theorem State.countDraw_sp : (s.countDraw).sp = s.sp := rfl
@[simp] theorem State.countDraw_mem : (s.countDraw).mem = s.mem := rfl
@[simp] theorem State.countDraw_fb : (s.countDraw).fb = s.fb := rfl
@[simp] theorem State.countDraw_keys : (s.countDraw).keys = s.keys := rfl
@[simp] theorem State.countDraw_run : (s.countDraw).run = s.run := rfl
@[simp] theorem State.countDraw_legacySl : (s.countDraw).legacySl = s.legacySl := rfl
@[simp] theorem State.countDraw_legacyShift : (s.countDraw).legacyShift = s.legacyShift := rfl
@[simp] theorem State.countDraw_draws : (s.countDraw).draws = s.draws + 1 := rfl

@[simp] theorem State.skipIf_v (c : Bool) : (s.skipIf c).v = s.v := by cases c <;> rfl
@[simp] theorem State.skipIf_i (c : Bool) : (s.skipIf c).i = s.i := by cases c <;> rfl
@[simp] theorem State.skipIf_dt (c : Bool) : (s.skipIf c).dt = s.dt := by cases c <;> rfl
@[simp] theorem State.skipIf_st (c : Bool) : (s.skipIf c).st = s.st := by cases c <;> rfl
@[simp] theorem State.skipIf_pc (c : Bool) : (s.skipIf c).pc = if c then s.pc + 4 else s.pc + 2 := by cases c <;> rfl
@[simp] theorem State.skipIf_stack (c : Bool) : (s.skipIf c).stack = s.stack := by cases c <;> rfl
@[simp] theorem State.skipIf_sp (c : Bool) : (s.skipIf c).sp = s.sp := by cases c <;> rfl
@[simp] theorem State.skipIf_mem (c : Bool) : (s.skipIf c).mem = s.mem := by cases c <;> rfl
@[simp] theorem State.skipIf_fb (c : Bool) : (s.skipIf c).fb = s.fb := by cases c <;> rfl
@[simp] theorem State.skipIf_keys (c : Bool) : (s.skipIf c).keys = s.keys := by cases c <;> rfl
@[simp] theorem State.skipIf_run (c : Bool) : (s.skipIf c).run = s.run := by cases c <;> rfl
@[simp] theorem State.skipIf_legacySl (c : Bool) : (s.skipIf c).legacySl = s.legacySl := by cases c <;> rfl
@[simp] theorem State.skipIf_legacyShift (c : Bool) : (s.skipIf c).legacyShift = s.legacyShift := by cases c <;> rfl
@[simp] theorem State.skipIf_draws (c : Bool) : (s.skipIf c).draws = s.draws := by cases c <;> rfl

@[simp] theorem State.readV_setI (w : Word) (y : Nibble) : (s.setI w).readV y = s.readV y := rfl
@[simp] theorem State.readV_setDt (b : Byte) (y : Nibble) : (s.setDt b).readV y = s.readV y := rfl
@[simp] theorem State.readV_setSt (b : Byte) (y : Nibble) : (s.setSt b).readV y = s.readV y := rfl
@[simp] theorem State.readV_setPc (w : Word) (y : Nibble) : (s.setPc w).readV y = s.readV y := rfl
@[simp] theorem State.readV_advance (y : Nibble) : (s.advance).readV y = s.readV y := rfl
@[simp] theorem State.readV_setStack (entries : Vector Word 16) (count : Fin 17) (y : Nibble) : (s.setStack entries count).readV y = s.readV y := rfl
@[simp] theorem State.readV_setMem (m : Memory) (y : Nibble) : (s.setMem m).readV y = s.readV y := rfl
@[simp] theorem State.readV_setFb (fb : Framebuffer) (y : Nibble) : (s.setFb fb).readV y = s.readV y := rfl
@[simp] theorem State.readV_setKey (k : Nibble) (pressed : Bool) (y : Nibble) : (s.setKey k pressed).readV y = s.readV y := rfl
@[simp] theorem State.readV_setRun (r : Run) (y : Nibble) : (s.setRun r).readV y = s.readV y := rfl
@[simp] theorem State.readV_countDraw (y : Nibble) : (s.countDraw).readV y = s.readV y := rfl
@[simp] theorem State.readV_skipIf (c : Bool) (y : Nibble) : (s.skipIf c).readV y = s.readV y := by cases c <;> rfl

@[simp] theorem State.key_setV (x : Nibble) (b : Byte) (j : Nibble) : (s.setV x b).key j = s.key j := rfl
@[simp] theorem State.key_setVPrefix (bytes : List Byte) (j : Nibble) : (s.setVPrefix bytes).key j = s.key j := by rw [State.setVPrefix]; rfl
@[simp] theorem State.key_setI (w : Word) (j : Nibble) : (s.setI w).key j = s.key j := rfl
@[simp] theorem State.key_setDt (b : Byte) (j : Nibble) : (s.setDt b).key j = s.key j := rfl
@[simp] theorem State.key_setSt (b : Byte) (j : Nibble) : (s.setSt b).key j = s.key j := rfl
@[simp] theorem State.key_setPc (w : Word) (j : Nibble) : (s.setPc w).key j = s.key j := rfl
@[simp] theorem State.key_advance (j : Nibble) : (s.advance).key j = s.key j := rfl
@[simp] theorem State.key_setStack (entries : Vector Word 16) (count : Fin 17) (j : Nibble) : (s.setStack entries count).key j = s.key j := rfl
@[simp] theorem State.key_setMem (m : Memory) (j : Nibble) : (s.setMem m).key j = s.key j := rfl
@[simp] theorem State.key_setFb (fb : Framebuffer) (j : Nibble) : (s.setFb fb).key j = s.key j := rfl
@[simp] theorem State.key_setRun (r : Run) (j : Nibble) : (s.setRun r).key j = s.key j := rfl
@[simp] theorem State.key_countDraw (j : Nibble) : (s.countDraw).key j = s.key j := rfl
@[simp] theorem State.key_skipIf (c : Bool) (j : Nibble) : (s.skipIf c).key j = s.key j := by cases c <;> rfl

@[simp] theorem State.byteAt_setV (x : Nibble) (b : Byte) (addr : Nat) : (s.setV x b).byteAt addr = s.byteAt addr := rfl
@[simp] theorem State.byteAt_setVPrefix (bytes : List Byte) (addr : Nat) : (s.setVPrefix bytes).byteAt addr = s.byteAt addr := by rw [State.setVPrefix]; rfl
@[simp] theorem State.byteAt_setI (w : Word) (addr : Nat) : (s.setI w).byteAt addr = s.byteAt addr := rfl
@[simp] theorem State.byteAt_setDt (b : Byte) (addr : Nat) : (s.setDt b).byteAt addr = s.byteAt addr := rfl
@[simp] theorem State.byteAt_setSt (b : Byte) (addr : Nat) : (s.setSt b).byteAt addr = s.byteAt addr := rfl
@[simp] theorem State.byteAt_setPc (w : Word) (addr : Nat) : (s.setPc w).byteAt addr = s.byteAt addr := rfl
@[simp] theorem State.byteAt_advance (addr : Nat) : (s.advance).byteAt addr = s.byteAt addr := rfl
@[simp] theorem State.byteAt_setStack (entries : Vector Word 16) (count : Fin 17) (addr : Nat) : (s.setStack entries count).byteAt addr = s.byteAt addr := rfl
@[simp] theorem State.byteAt_setMem (m : Memory) (addr : Nat) : (s.setMem m).byteAt addr = m.read addr := rfl
@[simp] theorem State.byteAt_setFb (fb : Framebuffer) (addr : Nat) : (s.setFb fb).byteAt addr = s.byteAt addr := rfl
@[simp] theorem State.byteAt_setKey (k : Nibble) (pressed : Bool) (addr : Nat) : (s.setKey k pressed).byteAt addr = s.byteAt addr := rfl
@[simp] theorem State.byteAt_setRun (r : Run) (addr : Nat) : (s.setRun r).byteAt addr = s.byteAt addr := rfl
@[simp] theorem State.byteAt_countDraw (addr : Nat) : (s.countDraw).byteAt addr = s.byteAt addr := rfl
@[simp] theorem State.byteAt_skipIf (c : Bool) (addr : Nat) : (s.skipIf c).byteAt addr = s.byteAt addr := by cases c <;> rfl

/-- A register reads what was last written to it, and every other register as before. -/
@[simp] theorem State.readV_setV (x y : Nibble) (b : Byte) :
    (s.setV x b).readV y = if y = x then b else s.readV y := by
  by_cases h : y = x
  · subst h; simp [State.readV]
  · have : x.toNat ≠ y.toNat := fun e => h (BitVec.eq_of_toNat_eq e.symm)
    simp [State.readV, h, this]

/-- A key reads what was last reported of it, and every other key as before. -/
@[simp] theorem State.key_setKey (k j : Nibble) (pressed : Bool) :
    (s.setKey k pressed).key j = if j = k then pressed else s.key j := by
  by_cases h : j = k
  · subst h; simp [State.key]
  · have : k.toNat ≠ j.toNat := fun e => h (BitVec.eq_of_toNat_eq e.symm)
    simp [State.key, h, this]

/-- After a prefix load a register holds its byte of the list, or what it held. -/
@[simp] theorem State.readV_setVPrefix (bytes : List Byte) (y : Nibble) :
    (s.setVPrefix bytes).readV y = bytes[y.toNat]?.getD (s.readV y) := by
  simp [State.readV, overwritePrefix]

/-- The flag write and the result write, in the order of 42_alu.md R171. -/
@[simp] theorem setFlagAndResult_eq (x : Nibble) (flag result : Byte) :
    setFlagAndResult s x flag result = (s.setV vf flag).setV x result := rfl

/-- A sequence of operations goes on after a success, stops at a fault, and succeeds exactly if both parts do. -/
@[simp] theorem except_bind_ok {α β : Type} (a : α) (f : α → Except Fault β) : (Except.ok a >>= f) = f a := rfl

@[simp] theorem except_bind_error {α β : Type} (c : Fault) (f : α → Except Fault β) :
    (Except.error c >>= f) = .error c := rfl

@[simp] theorem except_pure {α : Type} (a : α) : (pure a : Except Fault α) = .ok a := rfl

theorem except_bind_eq_ok {α β : Type} {e : Except Fault α} {f : α → Except Fault β} {b : β} :
    (e >>= f) = .ok b ↔ ∃ a, e = .ok a ∧ f a = .ok b := by
  cases e <;> simp

/-- A meaning that may raise answers a next state exactly if its operations succeed with it. -/
theorem settle_eq_next {e : Except Fault State} {t : State} : settle e = .next t ↔ e = .ok t := by
  cases e <;> simp [settle, raise]

@[simp] theorem settle_ok : settle (.ok s) = .next s := rfl

@[simp] theorem settle_error (c : Fault) : settle (.error c) = .fault c := rfl

end Sys2Proof.Machine
end

