-- ==== Sys2Proof/Laws/Display.lean ====
section
/-! SUPPORT. The framebuffer: reading a pixel after setting one, and what drawing a sprite does to every pixel, said
once for a bit, a row and a sprite. -/

namespace Sys2Proof.Machine

/-- A pixel reads what was last set, and every other pixel as before. -/
@[simp] theorem pixelOn_setPixel (fb : Framebuffer) (px qx : Fin 64) (py qy : Fin 32) (b : Bool) :
    pixelOn (setPixel fb px py b) qx qy = if qx = px ∧ qy = py then b else pixelOn fb qx qy := by
  unfold pixelOn setPixel
  by_cases hy : qy = py
  · subst hy
    by_cases hx : qx = px
    · subst hx; simp
    · have : px.val ≠ qx.val := fun e => hx (Fin.ext e.symm)
      simp [hx, this]
  · have : py.val ≠ qy.val := fun e => hy (Fin.ext e.symm)
    simp [hy, this]

@[simp] theorem pixelOn_blank (px : Fin 64) (py : Fin 32) : pixelOn blankFramebuffer px py = false := by
  simp [pixelOn, blankFramebuffer]

/-- A drawing pass: it toggles exactly the pixels of `covered`, and adds a collision exactly when one of them was on.
`d` is the drawing as a function of the framebuffer and the collision so far. -/
structure TogglesExactly (covered : Fin 64 → Fin 32 → Prop) (d : Framebuffer × Bool → Framebuffer × Bool) : Prop where
  on : ∀ acc px py, covered px py → pixelOn (d acc).1 px py = !pixelOn acc.1 px py
  off : ∀ acc px py, ¬covered px py → pixelOn (d acc).1 px py = pixelOn acc.1 px py
  collided : ∀ acc, (d acc).2 = true ↔ acc.2 = true ∨ ∃ px py, covered px py ∧ pixelOn acc.1 px py = true

/-- Doing nothing covers nothing. -/
theorem togglesExactly_nothing : TogglesExactly (fun _ _ => False) id where
  on := fun _ _ _ h => h.elim
  off := fun _ _ _ _ => rfl
  collided := by simp

/-- Two passes over disjoint sets of pixels are one pass over their union. -/
theorem TogglesExactly.comp {A B : Fin 64 → Fin 32 → Prop} {d e : Framebuffer × Bool → Framebuffer × Bool}
    (hd : TogglesExactly A d) (he : TogglesExactly B e) (disjoint : ∀ px py, A px py → ¬B px py) :
    TogglesExactly (fun px py => A px py ∨ B px py) (fun acc => e (d acc)) where
  on := fun acc px py h => by
    rcases h with h | h
    · rw [he.off _ _ _ (disjoint _ _ h), hd.on _ _ _ h]
    · rw [he.on _ _ _ h, hd.off _ _ _ fun ha => disjoint _ _ ha h]
  off := fun acc px py h => by
    rw [he.off _ _ _ fun hb => h (.inr hb), hd.off _ _ _ fun ha => h (.inl ha)]
  collided := fun acc => by
    rw [he.collided, hd.collided]
    constructor
    · rintro ((h | ⟨px, py, h, hon⟩) | ⟨px, py, h, hon⟩)
      · exact .inl h
      · exact .inr ⟨px, py, .inl h, hon⟩
      · exact .inr ⟨px, py, .inr h, by rwa [hd.off _ _ _ fun ha => disjoint _ _ ha h] at hon⟩
    · rintro (h | ⟨px, py, h | h, hon⟩)
      · exact .inl (.inl h)
      · exact .inl (.inr ⟨px, py, h, hon⟩)
      · exact .inr ⟨px, py, h, by rwa [hd.off _ _ _ fun ha => disjoint _ _ ha h]⟩

/-- The same pass under an equivalent description of its pixels. -/
theorem TogglesExactly.congr {A B : Fin 64 → Fin 32 → Prop} {d : Framebuffer × Bool → Framebuffer × Bool}
    (hd : TogglesExactly A d) (h : ∀ px py, A px py ↔ B px py) : TogglesExactly B d := by
  have : A = B := funext fun px => funext fun py => propext (h px py)
  exact this ▸ hd

/-- One bit of a sprite (44_display.md R220). -/
theorem drawBit_togglesExactly (ox oy r c : Nat) (bit : Bool) :
    TogglesExactly (fun px py => bit = true ∧ px.val = (ox + c) % 64 ∧ py.val = (oy + r) % 32)
      (drawBit ox oy r c bit) := by
  have key : ∀ (px : Fin 64) (py : Fin 32), (px.val = (ox + c) % 64 ∧ py.val = (oy + r) % 32) ↔
      (px = Fin.ofNat 64 (ox + c) ∧ py = Fin.ofNat 32 (oy + r)) := by
    intro px py
    rw [Fin.ext_iff, Fin.ext_iff]
    rfl
  cases bit with
  | false => exact togglesExactly_nothing.congr fun px py => by simp
  | true =>
    refine ⟨fun acc px py h => ?_, fun acc px py h => ?_, fun acc => ?_⟩
    · have h' := (key px py).mp h.2
      simp [drawBit, h'.1, h'.2]
    · have h' : ¬(px = Fin.ofNat 64 (ox + c) ∧ py = Fin.ofNat 32 (oy + r)) := fun e => h ⟨rfl, (key px py).mpr e⟩
      simp only [drawBit, if_true, pixelOn_setPixel, if_neg h']
    · simp only [drawBit, if_true, Bool.or_eq_true, true_and, key]
      refine or_congr Iff.rfl ⟨fun h => ⟨_, _, ⟨rfl, rfl⟩, h⟩, ?_⟩
      rintro ⟨px, py, ⟨rfl, rfl⟩, h⟩
      exact h

/-- The columns from 0 up to `m` of one row of a sprite. -/
theorem drawColumns_togglesExactly (ox oy r : Nat) (row : Byte) : ∀ m : Nat, m ≤ 8 →
    TogglesExactly (fun px py => ∃ c, c < m ∧ row.getLsbD (7 - c) = true ∧ px.val = (ox + c) % 64 ∧
        py.val = (oy + r) % 32)
      (fun acc => (List.range m).foldl (fun acc c => drawBit ox oy r c (row.getLsbD (7 - c)) acc) acc)
  | 0, _ => togglesExactly_nothing.congr fun px py => by simp
  | m + 1, hm => by
    have ih := drawColumns_togglesExactly ox oy r row m (by omega)
    have hbit := drawBit_togglesExactly ox oy r m (row.getLsbD (7 - m))
    have := ih.comp hbit fun px py ⟨c, hc, _, hx, _⟩ ⟨_, hx', _⟩ => by omega
    simp only [List.range_succ, List.foldl_append, List.foldl_cons, List.foldl_nil]
    refine this.congr fun px py => ⟨?_, ?_⟩
    · rintro (⟨c, hc, h⟩ | h)
      · exact ⟨c, by omega, h⟩
      · exact ⟨m, by omega, h⟩
    · rintro ⟨c, hc, h⟩
      by_cases hcm : c = m
      · subst hcm; exact .inr h
      · exact .inl ⟨c, by omega, h⟩

/-- One row of a sprite (44_display.md R220). -/
theorem drawRow_togglesExactly (ox oy r : Nat) (row : Byte) :
    TogglesExactly (fun px py => ∃ c, c < 8 ∧ row.getLsbD (7 - c) = true ∧ px.val = (ox + c) % 64 ∧
        py.val = (oy + r) % 32)
      (drawRow ox oy r row) :=
  drawColumns_togglesExactly ox oy r row 8 (Nat.le_refl 8)

/-- The rows of a sprite from row number `r` on, at most 32 of them, so that they are pairwise distinct (R224). -/
theorem drawRows_togglesExactly (ox oy : Nat) : ∀ (rows : List Byte) (r : Nat), rows.length ≤ 32 →
    TogglesExactly (fun px py => ∃ k c, ∃ h : k < rows.length, c < 8 ∧ rows[k].getLsbD (7 - c) = true ∧
        px.val = (ox + c) % 64 ∧ py.val = (oy + (r + k)) % 32)
      (drawRows ox oy r rows)
  | [], _, _ => togglesExactly_nothing.congr fun px py => by simp
  | row :: rows, r, hlen => by
    simp only [List.length_cons] at hlen
    have ih := drawRows_togglesExactly ox oy rows (r + 1) (by omega)
    have := (drawRow_togglesExactly ox oy r row).comp ih
      fun px py ⟨_, _, _, _, hy⟩ ⟨k, _, hk, _, _, _, hy'⟩ => by omega
    refine this.congr fun px py => ⟨?_, ?_⟩
    · rintro (⟨c, hc, hbit, hx, hy⟩ | ⟨k, c, hk, hc, hbit, hx, hy⟩)
      · exact ⟨0, c, by simp, hc, by simpa using hbit, hx, by simpa using hy⟩
      · exact ⟨k + 1, c, by simp; omega, hc, by simpa using hbit, hx, by rw [hy]; congr 1; omega⟩
    · rintro ⟨k, c, hk, hc, hbit, hx, hy⟩
      cases k with
      | zero => exact .inl ⟨c, hc, by simpa using hbit, hx, by simpa using hy⟩
      | succ k =>
        exact .inr ⟨k, c, by simpa using hk, hc, by simpa using hbit, hx, by rw [hy]; congr 1; omega⟩

/-- A sprite of at most 32 rows toggles exactly the pixels it covers (44_display.md R220, R221, R224). -/
theorem drawSprite_togglesExactly (ox oy : Byte) (rows : List Byte) (hlen : rows.length ≤ 32) :
    TogglesExactly (fun px py => ∃ k c, ∃ h : k < rows.length, c < 8 ∧ rows[k].getLsbD (7 - c) = true ∧
        px.val = (ox.toNat + c) % 64 ∧ py.val = (oy.toNat + k) % 32)
      (drawRows ox.toNat oy.toNat 0 rows) :=
  (drawRows_togglesExactly ox.toNat oy.toNat rows 0 hlen).congr fun px py => by simp only [Nat.zero_add]

end Sys2Proof.Machine
end

