-- ==== Sys2Proof/Laws/Memory.lean ====
section
/-! SUPPORT. Memory keeps its canonical form, a read after a write, and what the ascending sequences of reads and writes
answer, each said once. -/

namespace Sys2Proof.Machine

/-- Cells that begin higher also meet a lower bound. -/
theorem Memory.wfFrom_mono {lo lo' : Nat} (h : lo' ≤ lo) : ∀ {m : Memory}, wfFrom lo m = true → wfFrom lo' m = true
  | [], _ => rfl
  | (a, v) :: m, hm => by
    simp only [wfFrom, Bool.and_eq_true, decide_eq_true_eq] at hm ⊢
    exact ⟨⟨⟨by omega, hm.1.1.2⟩, hm.1.2⟩, hm.2⟩

/-- Below its first cell a memory reads as the background. -/
theorem Memory.read_below {lo a : Nat} (h : a < lo) : ∀ {m : Memory}, wfFrom lo m = true → m.read a = background a
  | [], _ => rfl
  | (b, v) :: m, hm => by
    simp only [wfFrom, Bool.and_eq_true, decide_eq_true_eq] at hm
    simp only [read, if_neg (show a ≠ b by omega)]
    exact Memory.read_below (show a < b + 1 by omega) hm.2

/-- A write keeps the canonical form. -/
theorem Memory.write_wfFrom {a : Nat} (v : Byte) (ha : a < Config.memSize) :
    ∀ {lo : Nat} {m : Memory}, lo ≤ a → wfFrom lo m = true → wfFrom lo (m.write a v) = true
  | lo, [], hlo, _ => by
    by_cases hv : v = background a <;> simp [write, wfFrom, hv, hlo, ha]
  | lo, (b, w) :: m, hlo, hm => by
    simp only [wfFrom, Bool.and_eq_true, decide_eq_true_eq] at hm
    obtain ⟨⟨⟨h1, h2⟩, h3⟩, h4⟩ := hm
    simp only [write]
    split
    · split
      · simp [wfFrom, h1, h2, h3, h4]
      · rename_i hab hv
        have hv' : (v != background a) = true := by simpa using hv
        simp [wfFrom, h2, h3, h4, hlo, ha, hv', show a + 1 ≤ b by omega]
    · split
      · subst_vars
        split
        · exact Memory.wfFrom_mono (by omega) h4
        · rename_i hv
          simp [wfFrom, h2, h4, hlo, hv]
      · simp only [wfFrom, Bool.and_eq_true, decide_eq_true_eq]
        exact ⟨⟨⟨h1, h2⟩, h3⟩, Memory.write_wfFrom v ha (by omega) h4⟩

/-- A write below 4096 keeps the canonical form of the whole memory. -/
theorem Memory.write_wf {m : Memory} {a : Nat} (v : Byte) (ha : a < Config.memSize) (hm : m.wf = true) :
    (m.write a v).wf = true :=
  Memory.write_wfFrom v ha (Nat.zero_le a) hm

/-- Read after write: the byte written, and every other byte as before. -/
theorem Memory.read_write_from {a : Nat} (v : Byte) (b : Nat) :
    ∀ {lo : Nat} {m : Memory}, wfFrom lo m = true → (m.write a v).read b = if b = a then v else m.read b
  | _, [], _ => by
    by_cases hv : v = background a
    · simp only [write, if_pos hv, read]
      split <;> simp_all
    · simp only [write, if_neg hv, read]
  | lo, (c, w) :: m, hm => by
    simp only [wfFrom, Bool.and_eq_true, decide_eq_true_eq] at hm
    simp only [write]
    split
    · rename_i hac
      split
      · rename_i hv
        split
        · subst_vars
          simp only [read, if_neg (Nat.ne_of_lt hac)]
          exact Memory.read_below (Nat.lt_succ_of_lt hac) hm.2
        · rfl
      · simp only [read]
    · split
      · rename_i hac
        subst hac
        split
        · rename_i hv
          split
          · subst_vars
            exact Memory.read_below (Nat.lt_succ_self _) hm.2
          · rename_i hb
            simp only [read, if_neg hb]
        · simp only [read]
          split <;> rfl
      · rename_i hac
        simp only [read]
        split
        · subst_vars
          rw [if_neg (fun h => hac h.symm)]
        · exact Memory.read_write_from v b hm.2

/-- Read after write, over a memory in canonical form. -/
theorem Memory.read_write {m : Memory} (hm : m.wf = true) (a : Nat) (v : Byte) (b : Nat) :
    (m.write a v).read b = if b = a then v else m.read b :=
  Memory.read_write_from v b hm

/-- Above 4095 a memory reads as the background. -/
theorem Memory.read_outside {a : Nat} (ha : Config.memSize ≤ a) :
    ∀ {lo : Nat} {m : Memory}, wfFrom lo m = true → m.read a = background a
  | _, [], _ => rfl
  | _, (b, v) :: m, hm => by
    simp only [wfFrom, Bool.and_eq_true, decide_eq_true_eq] at hm
    simp only [read, if_neg (show a ≠ b by omega)]
    exact Memory.read_outside ha hm.2

/-- Equal memories are equal data: two canonical memories that read alike are the same list. -/
theorem Memory.ext_read : ∀ {lo : Nat} {m m' : Memory}, wfFrom lo m = true → wfFrom lo m' = true →
    (∀ a, m.read a = m'.read a) → m = m'
  | _, [], [], _, _, _ => rfl
  | _, [], (b, w) :: m', _, hm', h => by
    simp only [wfFrom, Bool.and_eq_true, bne_iff_ne] at hm'
    have := h b
    simp only [read, if_true] at this
    exact absurd this.symm hm'.1.2
  | _, (b, w) :: m, [], hm, _, h => by
    simp only [wfFrom, Bool.and_eq_true, bne_iff_ne] at hm
    have := h b
    simp only [read, if_true] at this
    exact absurd this hm.1.2
  | _, (b, w) :: m, (c, u) :: m', hm, hm', h => by
    simp only [wfFrom, Bool.and_eq_true, bne_iff_ne, decide_eq_true_eq] at hm hm'
    have hbc : b = c := by
      by_contra hne
      rcases Nat.lt_or_gt_of_ne hne with hlt | hlt
      · have := h b
        simp only [read, if_true, if_neg hne] at this
        rw [Memory.read_below (show b < c + 1 by omega) hm'.2] at this
        exact hm.1.2 this
      · have := h c
        simp only [read, if_true, if_neg (Ne.symm hne)] at this
        rw [Memory.read_below (show c < b + 1 by omega) hm.2] at this
        exact hm'.1.2 this.symm
    subst hbc
    have hwu : w = u := by simpa [read] using h b
    subst hwu
    have htail : m = m' := Memory.ext_read hm.2 hm'.2 fun a => by
      by_cases hab : a = b
      · subst hab
        rw [Memory.read_below (Nat.lt_succ_self _) hm.2, Memory.read_below (Nat.lt_succ_self _) hm'.2]
      · simpa [read, hab] using h a
    rw [htail]

/-- Storing bytes in range keeps the canonical form. -/
theorem Memory.writeAll_wf : ∀ {vs : List Byte} {m : Memory} {a : Nat}, a + vs.length ≤ Config.memSize →
    m.wf = true → (m.writeAll a vs).wf = true
  | [], _, _, _, hm => hm
  | v :: vs, m, a, hlen, hm => by
    simp only [List.length_cons] at hlen
    exact Memory.writeAll_wf (m := m.write a v) (by omega) (Memory.write_wf v (by omega) hm)

/-- After storing a list at `a`, address `b` reads as its byte of the list, or as before. -/
theorem Memory.read_writeAll : ∀ {vs : List Byte} {m : Memory} {a : Nat}, a + vs.length ≤ Config.memSize →
    m.wf = true → ∀ b, (m.writeAll a vs).read b = if a ≤ b then vs[b - a]?.getD (m.read b) else m.read b
  | [], m, a, _, _, b => by simp [writeAll]
  | v :: vs, m, a, hlen, hm, b => by
    simp only [List.length_cons] at hlen
    simp only [writeAll]
    rw [Memory.read_writeAll (by omega) (Memory.write_wf v (by omega) hm) b, Memory.read_write hm]
    by_cases h1 : a + 1 ≤ b
    · have h2 : b ≠ a := by omega
      have h3 : a ≤ b := by omega
      have h4 : b - a = (b - (a + 1)) + 1 := by omega
      simp only [if_pos h1, if_pos h3, if_neg h2, h4, List.getElem?_cons_succ]
    · by_cases h2 : b = a
      · subst h2; simp
      · have h3 : ¬a ≤ b := by omega
        simp only [if_neg h1, if_neg h2, if_neg h3]

@[simp] theorem memRead_inRange {m : Memory} {a : Nat} (h : a < 4096) : memRead m a = .ok (m.read a) := if_pos h

@[simp] theorem memRead_outOfRange {m : Memory} {a : Nat} (h : 4096 ≤ a) :
    memRead m a = .error (.memoryOutOfRange a) :=
  if_neg (show ¬a < 4096 by omega)

@[simp] theorem memWrite_inRange {m : Memory} {a : Nat} {v : Byte} (h : a < 4096) :
    memWrite m a v = .ok (m.write a v) := if_pos h

@[simp] theorem memWrite_outOfRange {m : Memory} {a : Nat} {v : Byte} (h : 4096 ≤ a) :
    memWrite m a v = .error (.memoryOutOfRange a) :=
  if_neg (show ¬a < 4096 by omega)

/-- An ascending read that fits answers the bytes there. -/
theorem readBytes_inRange {m : Memory} : ∀ {n a : Nat}, a + n ≤ 4096 →
    readBytes m a n = .ok ((List.range n).map fun k => m.read (a + k))
  | 0, _, _ => rfl
  | n + 1, a, h => by
    simp only [readBytes, memRead_inRange (show a < 4096 by omega)]
    rw [readBytes_inRange (by omega), List.range_succ_eq_map]
    simp [Function.comp_def, Nat.add_assoc, Nat.add_comm 1]

/-- An ascending read of at least one byte that does not fit raises at the first address above 4095. -/
theorem readBytes_outOfRange {m : Memory} : ∀ {n a : Nat}, 0 < n → 4096 < a + n →
    readBytes m a n = .error (.memoryOutOfRange (max a 4096))
  | 0, _, h, _ => absurd h (Nat.lt_irrefl 0)
  | n + 1, a, _, h => by
    by_cases ha : a < 4096
    · have hn : 0 < n := by omega
      simp only [readBytes, memRead_inRange ha, readBytes_outOfRange hn (show 4096 < a + 1 + n by omega),
        except_bind_ok, except_bind_error]
      rw [show max (a + 1) 4096 = max a 4096 by omega]
    · simp only [readBytes, memRead_outOfRange (show 4096 ≤ a by omega), except_bind_error]
      rw [show max a 4096 = a by omega]

/-- An ascending store that fits stores every byte. -/
theorem writeBytes_inRange : ∀ {vs : List Byte} {m : Memory} {a : Nat}, a + vs.length ≤ 4096 →
    writeBytes m a vs = .ok (m.writeAll a vs)
  | [], _, _, _ => rfl
  | v :: vs, m, a, h => by
    simp only [List.length_cons] at h
    simp only [writeBytes, memWrite_inRange (show a < 4096 by omega)]
    exact writeBytes_inRange (by omega)

/-- An ascending store of at least one byte that does not fit raises at the first address above 4095. -/
theorem writeBytes_outOfRange : ∀ {vs : List Byte} {m : Memory} {a : Nat}, vs ≠ [] → 4096 < a + vs.length →
    writeBytes m a vs = .error (.memoryOutOfRange (max a 4096))
  | [], _, _, h, _ => absurd rfl h
  | v :: vs, m, a, _, h => by
    simp only [List.length_cons] at h
    by_cases ha : a < 4096
    · have hvs : vs ≠ [] := fun e => by subst e; simp at h; omega
      simp only [writeBytes, memWrite_inRange ha, except_bind_ok]
      rw [writeBytes_outOfRange hvs (by omega), show max (a + 1) 4096 = max a 4096 by omega]
    · simp only [writeBytes, memWrite_outOfRange (show 4096 ≤ a by omega), except_bind_error]
      rw [show max a 4096 = a by omega]

/-- An ascending read that succeeds fitted, or read nothing, and its bytes are those of the memory. -/
theorem readBytes_eq_ok {m : Memory} {a n : Nat} {bs : List Byte} (h : readBytes m a n = .ok bs) :
    (n = 0 ∨ a + n ≤ 4096) ∧ bs = (List.range n).map fun k => m.read (a + k) := by
  by_cases hn : n = 0
  · subst hn; cases h; exact ⟨.inl rfl, rfl⟩
  by_cases hfit : a + n ≤ 4096
  · rw [readBytes_inRange hfit] at h
    cases h
    exact ⟨.inr hfit, rfl⟩
  · rw [readBytes_outOfRange (by omega) (by omega)] at h
    cases h

/-- An ascending store that succeeds fitted, or stored nothing, and it stored every byte. -/
theorem writeBytes_eq_ok {vs : List Byte} {m m' : Memory} {a : Nat} (h : writeBytes m a vs = .ok m') :
    (vs = [] ∨ a + vs.length ≤ 4096) ∧ m' = m.writeAll a vs := by
  by_cases hvs : vs = []
  · subst hvs; cases h; exact ⟨.inl rfl, rfl⟩
  by_cases hfit : a + vs.length ≤ 4096
  · rw [writeBytes_inRange hfit] at h
    cases h
    exact ⟨.inr hfit, rfl⟩
  · rw [writeBytes_outOfRange hvs (by omega)] at h
    cases h

/-- A store that answers a memory keeps the canonical form. -/
theorem writeBytes_wf {vs : List Byte} {m m' : Memory} {a : Nat} (hm : m.wf = true)
    (h : writeBytes m a vs = .ok m') : m'.wf = true := by
  by_cases hvs : vs = []
  · subst hvs; cases h; exact hm
  by_cases hfit : a + vs.length ≤ 4096
  · rw [writeBytes_inRange hfit] at h
    cases h
    exact Memory.writeAll_wf hfit hm
  · rw [writeBytes_outOfRange hvs (by omega)] at h
    cases h

/-- Dropping listed cells of a rising list of addresses keeps the canonical form. -/
theorem Memory.ofFn_wfFrom (f : Nat → Byte) : ∀ (n lo : Nat), lo + n ≤ Config.memSize →
    wfFrom lo ((List.range' lo n).filterMap fun a => if f a = background a then none else some (a, f a)) = true
  | 0, _, _ => rfl
  | n + 1, lo, h => by
    have ih := Memory.ofFn_wfFrom f n (lo + 1) (by omega)
    rw [List.range'_succ, List.filterMap_cons]
    by_cases hf : f lo = background lo
    · simp only [if_pos hf]
      exact Memory.wfFrom_mono (Nat.le_succ lo) ih
    · have hf' : (f lo != background lo) = true := by simpa using hf
      simp only [if_neg hf, wfFrom, hf', ih, Bool.and_true, Bool.and_eq_true, decide_eq_true_eq]
      exact ⟨Nat.le_refl lo, by omega⟩

/-- A memory made from a function is canonical. -/
theorem Memory.ofFn_wf (f : Nat → Byte) : (Memory.ofFn f).wf = true := by
  unfold Memory.ofFn Memory.wf
  rw [List.range_eq_range']
  exact Memory.ofFn_wfFrom f Config.memSize 0 (by omega)

end Sys2Proof.Machine
end

