-- ==== Sys2Proof/Laws/Ops.lean ====
section
/-! SUPPORT. What each shared operation can do, said once: stack, additions to `I`, fetch, key test, operand forms. -/

namespace Sys2Proof.Machine

/-- A push below capacity puts the address at SP and counts it. -/
theorem push_belowCapacity {s : State} (a : Word) (h : s.sp.val < 16) :
    push s a = .ok (s.setStack (s.stack.set s.sp.val a h) ⟨s.sp.val + 1, by omega⟩) := dif_pos h

/-- A push on a full stack raises. -/
theorem push_full {s : State} (a : Word) (h : s.sp.val = 16) : push s a = .error .stackOverflow :=
  dif_neg (by omega)

/-- A pop of a live entry answers it and counts it off. -/
theorem pop_live {s : State} (h : 0 < s.sp.val) :
    pop s = .ok (s.stack[s.sp.val - 1]'(by omega), s.setStack s.stack ⟨s.sp.val - 1, by omega⟩) := dif_pos h

/-- A pop of the empty stack raises. -/
theorem pop_empty {s : State} (h : s.sp.val = 0) : pop s = .error .stackUnderflow := dif_neg (by omega)

/-- A sum that fits goes into `I`. -/
theorem addToI_fits {s : State} {d : Nat} (h : s.i.toNat + d ≤ 65535) :
    addToI s d = .ok (s.setI (BitVec.ofNat 16 (s.i.toNat + d))) := if_pos h

/-- A sum above 65535 raises. -/
theorem addToI_overflows {s : State} {d : Nat} (h : 65535 < s.i.toNat + d) :
    addToI s d = .error .undefinedIOverflow := if_neg (by omega)

/-- The LEGACY_SL increment of an `I` that has just addressed memory never raises (43_index_memory.md R206). -/
theorem legacyAdvanceI_fits {s : State} (x : Nibble) (h : s.i.toNat + x.toNat ≤ 4095) :
    legacyAdvanceI s x =
      .ok (if s.legacySl then s.setI (BitVec.ofNat 16 (s.i.toNat + (x.toNat + 1))) else s) := by
  unfold legacyAdvanceI
  split
  · rw [addToI_fits (by omega)]
  · rfl

/-- What a push that succeeds has done. -/
theorem push_eq_ok {s u : State} {a : Word} (h : push s a = .ok u) :
    ∃ hsp : s.sp.val < 16, u = s.setStack (s.stack.set s.sp.val a hsp) ⟨s.sp.val + 1, by omega⟩ := by
  by_cases hsp : s.sp.val < 16
  · rw [push_belowCapacity a hsp] at h
    cases h
    exact ⟨hsp, rfl⟩
  · rw [push_full a (by omega)] at h
    cases h

/-- What a pop that succeeds has done. -/
theorem pop_eq_ok {s u : State} {a : Word} (h : pop s = .ok (a, u)) :
    ∃ hsp : 0 < s.sp.val, a = s.stack[s.sp.val - 1]'(by omega) ∧
      u = s.setStack s.stack ⟨s.sp.val - 1, by omega⟩ := by
  by_cases hsp : 0 < s.sp.val
  · rw [pop_live hsp] at h
    cases h
    exact ⟨hsp, rfl, rfl⟩
  · rw [pop_empty (by omega)] at h
    cases h

/-- What an addition to `I` that succeeds has done. -/
theorem addToI_eq_ok {s u : State} {d : Nat} (h : addToI s d = .ok u) :
    s.i.toNat + d ≤ 65535 ∧ u = s.setI (BitVec.ofNat 16 (s.i.toNat + d)) := by
  by_cases hfit : s.i.toNat + d ≤ 65535
  · rw [addToI_fits hfit] at h
    cases h
    exact ⟨hfit, rfl⟩
  · rw [addToI_overflows (by omega)] at h
    cases h

/-- The LEGACY_SL increment, if it succeeds, writes at most `I`. -/
theorem legacyAdvanceI_eq_ok {s u : State} {x : Nibble} (h : legacyAdvanceI s x = .ok u) : ∃ w, u = s.setI w := by
  unfold legacyAdvanceI at h
  split at h
  · exact ⟨_, (addToI_eq_ok h).2⟩
  · cases h
    exact ⟨s.i, rfl⟩

/-- A fetch from a `pc` of at most 4094 composes the two bytes there. -/
theorem fetch_inRange {s : State} (h : s.pc.toNat ≤ 4094) :
    fetch s = .ok (s.byteAt s.pc.toNat ++ s.byteAt (s.pc.toNat + 1)) := by
  unfold fetch
  rw [memRead_inRange (by omega), memRead_inRange (by omega)]
  rfl

/-- A fetch from a higher `pc` raises at the first address above 4095. -/
theorem fetch_outOfRange {s : State} (h : 4094 < s.pc.toNat) :
    fetch s = .error (.memoryOutOfRange (max s.pc.toNat 4096)) := by
  unfold fetch
  by_cases h' : s.pc.toNat < 4096
  · rw [memRead_inRange h', memRead_outOfRange (by omega)]
    simp only [except_bind_ok, except_bind_error, Except.error.injEq, Fault.memoryOutOfRange.injEq]
    omega
  · rw [memRead_outOfRange (by omega)]
    simp only [except_bind_error, Except.error.injEq, Fault.memoryOutOfRange.injEq]
    omega

/-- A key index of 0..15 reads its key. -/
theorem keyState_inDomain {s : State} {b : Byte} {k : Nibble} (h : b.toNat = k.toNat) :
    keyState s b = .ok (s.key k) := by
  have hk := k.isLt
  have hb : b.setWidth 4 = k := BitVec.eq_of_toNat_eq (by simp only [BitVec.toNat_setWidth]; omega)
  unfold keyState
  rw [if_pos (by rw [BitVec.le_def]; simp; omega), hb]

/-- A key index above 15 raises. -/
theorem keyState_outsideDomain {s : State} {b : Byte} (h : 15 < b.toNat) :
    keyState s b = .error (.undefinedKeyIndex b) :=
  if_neg (by rw [BitVec.le_def]; simp; omega)

@[simp] theorem zextAddr_toNat (nnn : Addr12) : (zextAddr nnn).toNat = nnn.toNat := by
  have := nnn.isLt
  simp only [zextAddr, BitVec.toNat_setWidth]
  omega

@[simp] theorem zextByte_toNat (b : Byte) : (zextByte b).toNat = b.toNat := by
  have := b.isLt
  simp only [zextByte, BitVec.toNat_setWidth]
  omega

@[simp] theorem effAddr_eq (s : State) (k : Nat) : effAddr s k = s.i.toNat + k := rfl

/-- The registers `V[0..x]` as a list: `x + 1` bytes. -/
@[simp] theorem regsUpTo_length (s : State) (x : Nibble) : (regsUpTo s x).length = x.toNat + 1 := by
  have := x.isLt
  simp only [regsUpTo, List.length_take, Vector.length_toList]
  omega

/-- Entry `k` of the list `V[0..x]` is `V[k]`. -/
theorem regsUpTo_getElem? (s : State) (x k : Nibble) (h : k.toNat ≤ x.toNat) :
    (regsUpTo s x)[k.toNat]? = some (s.readV k) := by
  have hk := k.isLt
  simp [regsUpTo, State.readV, show k.toNat < x.toNat + 1 by omega, hk]

end Sys2Proof.Machine
end

