-- ==== Sys2Proof/Laws/HostOps.lean ====
section
/-! SUPPORT. What the host operations can do, said once: in a non-faulted state they happen, in a faulted one they are
refused; a timer after a tick; and the memory a loader or a constructor leaves. -/

namespace Sys2Proof.Machine

/-- A non-faulted machine is running or waits for a key. -/
theorem State.notFaulted_cases {s : State} (h : s.isFaulted = false) : s.run = .running ∨ ∃ x, s.run = .awaitingKey x := by
  unfold State.isFaulted at h
  cases hr : s.run with
  | running => exact .inl rfl
  | awaitingKey x => exact .inr ⟨x, rfl⟩
  | faulted c => simp [hr] at h

/-- Before a fatal condition an operation happens. -/
theorem beforeFatal_notFaulted {s : State} (h : s.isFaulted = false) (result : State × Reply) :
    beforeFatal s result = .done result.1 result.2 := by
  rcases State.notFaulted_cases h with hr | ⟨x, hr⟩ <;> simp [beforeFatal, hr]

/-- After a fatal condition it is refused. -/
theorem beforeFatal_faulted {s : State} {c : Fault} (h : s.run = .faulted c) (result : State × Reply) :
    beforeFatal s result = .refused .operationAfterFatal := by
  simp [beforeFatal, h]

/-- An operation that is done was called before a fatal condition. -/
theorem beforeFatal_done {s t : State} {r : Reply} {result : State × Reply} (h : beforeFatal s result = .done t r) :
    s.isFaulted = false ∧ t = result.1 ∧ r = result.2 := by
  unfold beforeFatal at h
  cases hr : s.run with
  | running => simp [hr] at h; simp [State.isFaulted, hr, h]
  | awaitingKey x => simp [hr] at h; simp [State.isFaulted, hr, h]
  | faulted c => simp [hr] at h

/-- The host's view of KEYS shows each key. -/
@[simp] theorem readBackKeys_getElem (s : State) (k : Nibble) : (readBackKeys s)[k.toNat]'k.isLt = s.key k := rfl

/-- A timer after one tick, as a number: one less, stopping at 0. -/
@[simp] theorem tickDown_toNat (t : Byte) : (tickDown t).toNat = t.toNat - 1 := by
  unfold tickDown
  split
  · simp_all
  · rename_i h
    have h0 : t.toNat ≠ 0 := fun e => h (BitVec.eq_of_toNat_eq (by simpa using e))
    have := t.isLt
    rw [BitVec.toNat_sub]
    simp
    omega

/-- The empty memory is canonical and reads as the background everywhere. -/
@[simp] theorem Memory.nil_wf : Memory.wf [] = true := rfl

@[simp] theorem Memory.read_nil (a : Nat) : Memory.read [] a = Memory.background a := rfl

/-- The background above the glyph table is 0. -/
theorem Memory.background_above {a : Nat} (h : 80 ≤ a) : Memory.background a = 0 := by
  have : defaultGlyphs.length = 80 := rfl
  rw [Memory.background, List.getElem?_eq_none (by omega)]
  rfl

/-- The memory of a constructed machine is canonical. -/
theorem State.construct_mem_wf (glyphs : Vector Byte 80) (sl shift : Bool) :
    (State.construct glyphs sl shift).mem.wf = true :=
  Memory.writeAll_wf (by simp [Config.memSize]) rfl

end Sys2Proof.Machine
end

