-- ==== Sys2Proof/Laws/PerInstr.lean ====
section
/-! SUPPORT. Statements made per instruction. Family EncodingMatchesRow: an instruction's word matches its row of the
opcode map (spec/30_encoding.md R95). -/

namespace Sys2Proof.Laws.EncodingMatchesRow

/-- The word of `i` under its row's mask is its row's pattern. -/
def Statement (i : Instr) : Prop := encodeWord i &&& (opcodeRow i).mask = (opcodeRow i).pattern

/-- Format NNN under the mask 0xF000. -/
theorem maskOp_formatNnn (op : Nibble) (nnn : Addr12) :
    ((op ++ nnn : Word) &&& 0xF000#16).toNat = op.toNat * 4096 := by
  have := nnn.isLt
  rw [maskOp_eq, append_toNat, fieldOp_toNat, formatNnn_toNat]
  simp only [BitVec.toNat_ofNat]
  omega

/-- Format XKK under the mask 0xF000. -/
theorem maskOp_formatXkk (op x : Nibble) (kk : Byte) :
    ((op ++ x ++ kk : Word) &&& 0xF000#16).toNat = op.toNat * 4096 := by
  have := kk.isLt
  have := x.isLt
  rw [maskOp_eq, append_toNat, fieldOp_toNat, formatXkk_toNat]
  simp only [BitVec.toNat_ofNat]
  omega

/-- Format XSS under the mask 0xF0FF. -/
theorem maskOpKk_formatXkk (op x : Nibble) (kk : Byte) :
    ((op ++ x ++ kk : Word) &&& 0xF0FF#16).toNat = op.toNat * 4096 + kk.toNat := by
  have := kk.isLt
  have := x.isLt
  rw [maskOpKk_eq, append_toNat, append_toNat, fieldOp_toNat, fieldKk_toNat, formatXkk_toNat]
  simp only [BitVec.toNat_ofNat]
  omega

/-- Format XYN under the mask 0xF000. -/
theorem maskOp_formatXyn (op x y n : Nibble) :
    ((op ++ x ++ y ++ n : Word) &&& 0xF000#16).toNat = op.toNat * 4096 := by
  have := n.isLt
  have := x.isLt
  have := y.isLt
  rw [maskOp_eq, append_toNat, fieldOp_toNat, formatXyn_toNat]
  simp only [BitVec.toNat_ofNat]
  omega

/-- Format XYN under the mask 0xF00F. -/
theorem maskOpN_formatXyn (op x y n : Nibble) :
    ((op ++ x ++ y ++ n : Word) &&& 0xF00F#16).toNat = op.toNat * 4096 + n.toNat := by
  have := n.isLt
  have := x.isLt
  have := y.isLt
  rw [maskOpN_eq, append_toNat, append_toNat, fieldOp_toNat, fieldN_toNat, formatXyn_toNat]
  simp only [BitVec.toNat_ofNat]
  omega

theorem cls : Statement .cls := by unfold Statement; decide

theorem ret : Statement .ret := by unfold Statement; decide

theorem sys (nnn : Addr12) : Statement (.sys nnn) := BitVec.eq_of_toNat_eq (maskOp_formatNnn _ nnn)

theorem jp (nnn : Addr12) : Statement (.jp nnn) := BitVec.eq_of_toNat_eq (maskOp_formatNnn _ nnn)

theorem call (nnn : Addr12) : Statement (.call nnn) := BitVec.eq_of_toNat_eq (maskOp_formatNnn _ nnn)

theorem seImm (x : Nibble) (kk : Byte) : Statement (.seImm x kk) := BitVec.eq_of_toNat_eq (maskOp_formatXkk _ x kk)

theorem sneImm (x : Nibble) (kk : Byte) : Statement (.sneImm x kk) := BitVec.eq_of_toNat_eq (maskOp_formatXkk _ x kk)

theorem seReg (x y : Nibble) : Statement (.seReg x y) := BitVec.eq_of_toNat_eq (maskOpN_formatXyn _ x y _)

theorem ldImm (x : Nibble) (kk : Byte) : Statement (.ldImm x kk) := BitVec.eq_of_toNat_eq (maskOp_formatXkk _ x kk)

theorem addImm (x : Nibble) (kk : Byte) : Statement (.addImm x kk) := BitVec.eq_of_toNat_eq (maskOp_formatXkk _ x kk)

theorem ldReg (x y : Nibble) : Statement (.ldReg x y) := BitVec.eq_of_toNat_eq (maskOpN_formatXyn _ x y _)

theorem orReg (x y : Nibble) : Statement (.orReg x y) := BitVec.eq_of_toNat_eq (maskOpN_formatXyn _ x y _)

theorem andReg (x y : Nibble) : Statement (.andReg x y) := BitVec.eq_of_toNat_eq (maskOpN_formatXyn _ x y _)

theorem xorReg (x y : Nibble) : Statement (.xorReg x y) := BitVec.eq_of_toNat_eq (maskOpN_formatXyn _ x y _)

theorem addReg (x y : Nibble) : Statement (.addReg x y) := BitVec.eq_of_toNat_eq (maskOpN_formatXyn _ x y _)

theorem subReg (x y : Nibble) : Statement (.subReg x y) := BitVec.eq_of_toNat_eq (maskOpN_formatXyn _ x y _)

theorem shr (x y : Nibble) : Statement (.shr x y) := BitVec.eq_of_toNat_eq (maskOpN_formatXyn _ x y _)

theorem subn (x y : Nibble) : Statement (.subn x y) := BitVec.eq_of_toNat_eq (maskOpN_formatXyn _ x y _)

theorem shl (x y : Nibble) : Statement (.shl x y) := BitVec.eq_of_toNat_eq (maskOpN_formatXyn _ x y _)

theorem sneReg (x y : Nibble) : Statement (.sneReg x y) := BitVec.eq_of_toNat_eq (maskOpN_formatXyn _ x y _)

theorem ldI (nnn : Addr12) : Statement (.ldI nnn) := BitVec.eq_of_toNat_eq (maskOp_formatNnn _ nnn)

theorem jpV0 (nnn : Addr12) : Statement (.jpV0 nnn) := BitVec.eq_of_toNat_eq (maskOp_formatNnn _ nnn)

theorem rnd (x : Nibble) (kk : Byte) : Statement (.rnd x kk) := BitVec.eq_of_toNat_eq (maskOp_formatXkk _ x kk)

theorem drw (x y n : Nibble) : Statement (.drw x y n) := BitVec.eq_of_toNat_eq (maskOp_formatXyn _ x y n)

theorem skp (x : Nibble) : Statement (.skp x) := BitVec.eq_of_toNat_eq (maskOpKk_formatXkk _ x _)

theorem sknp (x : Nibble) : Statement (.sknp x) := BitVec.eq_of_toNat_eq (maskOpKk_formatXkk _ x _)

theorem ldFromDt (x : Nibble) : Statement (.ldFromDt x) := BitVec.eq_of_toNat_eq (maskOpKk_formatXkk _ x _)

theorem ldKey (x : Nibble) : Statement (.ldKey x) := BitVec.eq_of_toNat_eq (maskOpKk_formatXkk _ x _)

theorem ldDt (x : Nibble) : Statement (.ldDt x) := BitVec.eq_of_toNat_eq (maskOpKk_formatXkk _ x _)

theorem ldSt (x : Nibble) : Statement (.ldSt x) := BitVec.eq_of_toNat_eq (maskOpKk_formatXkk _ x _)

theorem addI (x : Nibble) : Statement (.addI x) := BitVec.eq_of_toNat_eq (maskOpKk_formatXkk _ x _)

theorem ldGlyph (x : Nibble) : Statement (.ldGlyph x) := BitVec.eq_of_toNat_eq (maskOpKk_formatXkk _ x _)

theorem bcd (x : Nibble) : Statement (.bcd x) := BitVec.eq_of_toNat_eq (maskOpKk_formatXkk _ x _)

theorem store (x : Nibble) : Statement (.store x) := BitVec.eq_of_toNat_eq (maskOpKk_formatXkk _ x _)

theorem load (x : Nibble) : Statement (.load x) := BitVec.eq_of_toNat_eq (maskOpKk_formatXkk _ x _)

end Sys2Proof.Laws.EncodingMatchesRow
end

