-- ==== Sys2Proof/Tests/Slice0.lean ====
section
/-! SUPPORT. Tests: well-formedness, decoding of every constructor, one step per vector of spec/95_test_vectors.md (V<f>-<n>,
S<n>), host operations, and for every obligation with hypotheses a state that meets them. Expected results come from
spec/ only. -/

namespace Sys2Proof.Tests

open Sys2Proof Sys2Proof.Machine

/-! ### Well-formedness: the check refuses the two terms whose words are other instructions -/

theorem test_wf_refuses_sys_0E0 : (Instr.sys 0x0E0).wellFormed = false := by decide
theorem test_wf_refuses_sys_0EE : (Instr.sys 0x0EE).wellFormed = false := by decide
theorem test_wf_accepts_sys_0E1 : (Instr.sys 0x0E1).wellFormed = true := by decide

/-! ### Decoding: a word of every row of 30_encoding.md R95, fields written out by R91 (V30-2 to V30-17) -/

theorem test_decode_cls : decode [0x00, 0xE0] = some (.cls, []) := by decide
theorem test_decode_ret : decode [0x00, 0xEE] = some (.ret, []) := by decide
theorem test_decode_sys : decode [0x01, 0xE0] = some (.sys 0x1E0, []) := by decide
theorem test_decode_jp : decode [0x1A, 0xBC] = some (.jp 0xABC, []) := by decide
theorem test_decode_call : decode [0x22, 0x10] = some (.call 0x210, []) := by decide
theorem test_decode_seImm : decode [0x3F, 0x2A] = some (.seImm 0xF 0x2A, []) := by decide
theorem test_decode_sneImm : decode [0x43, 0x11] = some (.sneImm 3 0x11, []) := by decide
theorem test_decode_seReg : decode [0x5A, 0xB0] = some (.seReg 0xA 0xB, []) := by decide
theorem test_decode_ldImm : decode [0x6A, 0x2C] = some (.ldImm 0xA 0x2C, []) := by decide
theorem test_decode_addImm : decode [0x72, 0xFF] = some (.addImm 2 0xFF, []) := by decide
theorem test_decode_ldReg : decode [0x8A, 0xB0] = some (.ldReg 0xA 0xB, []) := by decide
theorem test_decode_orReg : decode [0x8A, 0xB1] = some (.orReg 0xA 0xB, []) := by decide
theorem test_decode_andReg : decode [0x8A, 0xB2] = some (.andReg 0xA 0xB, []) := by decide
theorem test_decode_xorReg : decode [0x8A, 0xB3] = some (.xorReg 0xA 0xB, []) := by decide
theorem test_decode_addReg : decode [0x8A, 0xB4] = some (.addReg 0xA 0xB, []) := by decide
theorem test_decode_subReg : decode [0x8A, 0xB5] = some (.subReg 0xA 0xB, []) := by decide
theorem test_decode_shr : decode [0x8A, 0xB6] = some (.shr 0xA 0xB, []) := by decide
theorem test_decode_subn : decode [0x8A, 0xB7] = some (.subn 0xA 0xB, []) := by decide
theorem test_decode_shl : decode [0x8A, 0xBE] = some (.shl 0xA 0xB, []) := by decide
theorem test_decode_sneReg : decode [0x9A, 0xB0] = some (.sneReg 0xA 0xB, []) := by decide
theorem test_decode_ldI : decode [0xAF, 0xFF] = some (.ldI 0xFFF, []) := by decide
theorem test_decode_jpV0 : decode [0xBF, 0x12] = some (.jpV0 0xF12, []) := by decide
theorem test_decode_rnd : decode [0xC3, 0x0F] = some (.rnd 3 0x0F, []) := by decide
theorem test_decode_drw : decode [0xD1, 0x2F] = some (.drw 1 2 0xF, []) := by decide
theorem test_decode_skp : decode [0xE1, 0x9E] = some (.skp 1, []) := by decide
theorem test_decode_sknp : decode [0xE1, 0xA1] = some (.sknp 1, []) := by decide
theorem test_decode_ldFromDt : decode [0xF1, 0x07] = some (.ldFromDt 1, []) := by decide
theorem test_decode_ldKey : decode [0xF1, 0x0A] = some (.ldKey 1, []) := by decide
theorem test_decode_ldDt : decode [0xF1, 0x15] = some (.ldDt 1, []) := by decide
theorem test_decode_ldSt : decode [0xF1, 0x18] = some (.ldSt 1, []) := by decide
theorem test_decode_addI : decode [0xF1, 0x1E] = some (.addI 1, []) := by decide
theorem test_decode_ldGlyph : decode [0xF1, 0x29] = some (.ldGlyph 1, []) := by decide
theorem test_decode_bcd : decode [0xF1, 0x33] = some (.bcd 1, []) := by decide
theorem test_decode_store : decode [0xF1, 0x55] = some (.store 1, []) := by decide
theorem test_decode_load : decode [0xF1, 0x65] = some (.load 1, []) := by decide

/-- V30-8, V30-9, V30-11, V30-14, V30-16. -/
theorem test_decode_undefined : ([0x5AB1, 0x5ABF, 0x9AB1, 0x9ABE, 0x8AB8, 0x8ABD, 0x8ABF, 0xE19F, 0xE1A0, 0xE100, 0xF100,
    0xF106, 0xF108, 0xF11F, 0xF175, 0xF1FF].all fun w => (decodeTableWord 16 w).isNone) = true := by decide

/-- V30-6. -/
theorem test_decode_no_ops : ([0x0000, 0x00E1, 0x00EF, 0x00FE, 0x0123, 0x0FFF, 0x01E0, 0x0EE0].all fun w =>
    decodeTableWord 16 w == some (.sys (BitVec.ofNat 12 w))) = true := by decide

/-- 30_encoding.md R95: the encoder agrees on a word of each format. -/
theorem test_encode : [encode (.jp 0xABC), encode (.ldImm 0xA 0x2C), encode (.drw 1 2 0xF), encode (.load 1)] =
    [[0x1A, 0xBC], [0x6A, 0x2C], [0xD1, 0x2F], [0xF1, 0x65]] := by decide

/-! ### Building small states -/

/-- Registers set. -/
def regs (l : List (Nibble × Byte)) (s : State) : State := l.foldl (fun s p => s.setV p.1 p.2) s

/-- Bytes stored from an address on. -/
def bytes (addr : Nat) (l : List Byte) (s : State) : State := s.setMem (s.mem.writeAll addr l)

/-- Live stack entries. -/
def calls (l : List Word) (s : State) : State :=
  s.setStack (Vector.ofFn fun k : Fin 16 => l[k.val]?.getD 0) (Fin.ofNat 17 l.length)

/-- The reset state. -/
def m0 : State := State.reset

/-- The reset state with LEGACY_SL set. -/
def mSl : State := { State.reset with legacySl := true }

/-- The reset state with LEGACY_SHIFT set. -/
def mShift : State := { State.reset with legacyShift := true }

/-- One pixel on. -/
def dot (px : Fin 64) (py : Fin 32) : Framebuffer := setPixel blankFramebuffer px py true

/-- The word placed at `pc` runs, answers a next state, and that state passes the test. -/
def steps (s : State) (w : Nat) (p : State → Bool) : Bool :=
  match step (s.withFetchWord 16 w) with
  | .next t => p t
  | .fault _ => false
  | .refused _ => false

/-- The fatal condition that ends the step of the word placed at `pc`, if one does. -/
def faultOf (s : State) (w : Nat) : Option Fault :=
  match step (s.withFetchWord 16 w) with
  | .next _ => none
  | .fault c => some c
  | .refused _ => none

/-- What an operation leaves and answers. -/
def op (o : HostOp) (s : State) (p : State → Reply → Bool) : Bool :=
  match perform o s with
  | .done t r => p t r
  | .refused _ => false

/-! ### Control flow (V41) -/

/-- V41-11. -/
theorem test_ret : steps (calls [0x206, 0x300] m0) 0x00EE (fun t => t.pc == 0x300 && t.sp == 1) = true := by decide

/-- V41-10. -/
theorem test_ret_empty : faultOf m0 0x00EE = some .stackUnderflow := by decide

/-- V41-2. -/
theorem test_sys : steps (calls [0x206] (m0.setFb (dot 0 0))) 0x00E1 (fun t => t.pc == 0x202 && t.sp == 1 && pixelOn t.fb 0 0) = true := by decide

/-- V41-3. -/
theorem test_jp : steps (m0.setPc 0x20A) 0x1204 (fun t => t.pc == 0x204) = true := by decide

/-- V41-7. -/
theorem test_call : steps (m0.setPc 0x204) 0x2210 (fun t => t.stack[0] == 0x206 && t.sp == 1 && t.pc == 0x210) = true := by decide

/-- V41-8. -/
theorem test_call_full : faultOf (calls (List.replicate 16 0x300) m0) 0x2210 = some .stackOverflow := by decide

/-- V41-12. -/
theorem test_seImm : steps (m0.setPc 0x208) 0x3000 (fun t => t.pc == 0x20C) = true := by decide

/-- V41-14. -/
theorem test_sneImm : steps (regs [(3, 0x10)] (m0.setPc 0x300)) 0x4310 (fun t => t.pc == 0x302) = true := by decide

/-- V41-15. -/
theorem test_seReg : steps (regs [(1, 7), (2, 8)] m0) 0x5120 (fun t => t.pc == 0x202) = true := by decide

/-- V41-17. -/
theorem test_sneReg : steps (regs [(1, 7), (2, 8)] m0) 0x9120 (fun t => t.pc == 0x204) = true := by decide

/-- V41-22. -/
theorem test_jpV0 : steps (regs [(0, 0xFF)] m0) 0xBFFF (fun t => t.pc == 0x10FE) = true := by decide

/-- V41-23. -/
theorem test_jpV0_uses_V0 : steps (regs [(0, 0xFF), (0xF, 1)] m0) 0xBF00 (fun t => t.pc == 0xFFF) = true := by decide

/-! ### Registers (V42, S2 to S4) -/

/-- V42-2. -/
theorem test_ldImm : steps (regs [(0xF, 1)] m0) 0x6F05 (fun t => t.readV 0xF == 5 && t.pc == 0x202) = true := by decide

/-- V42-3. -/
theorem test_addImm : steps (regs [(0, 255), (0xF, 0)] m0) 0x7001 (fun t => t.readV 0 == 0 && t.readV 0xF == 0) = true := by decide

/-- V42-6. -/
theorem test_ldReg : steps (regs [(2, 9)] m0) 0x8120 (fun t => t.readV 1 == 9 && t.readV 2 == 9) = true := by decide

/-- V42-7. -/
theorem test_orReg : steps (regs [(0, 0xF0), (1, 0x0F), (0xF, 1)] m0) 0x8011 (fun t => t.readV 0 == 0xFF && t.readV 0xF == 1) = true := by decide

/-- V42-8. -/
theorem test_andReg : steps (regs [(0, 0xF0), (1, 0x3C), (0xF, 1)] m0) 0x8012 (fun t => t.readV 0 == 0x30 && t.readV 0xF == 1) = true := by decide

/-- V42-9. -/
theorem test_xorReg : steps (regs [(0, 0xF0), (1, 0x3C), (0xF, 1)] m0) 0x8013 (fun t => t.readV 0 == 0xCC && t.readV 0xF == 1) = true := by decide

/-- V42-11. -/
theorem test_addReg : steps (regs [(0, 200), (1, 100)] m0) 0x8014 (fun t => t.readV 0 == 44 && t.readV 0xF == 1) = true := by decide

/-- V42-16 (decision D8). -/
theorem test_addReg_into_VF : steps (regs [(0xF, 200), (1, 100)] m0) 0x8F14 (fun t => t.readV 0xF == 44) = true := by decide

/-- V42-18. -/
theorem test_subReg : steps (regs [(0, 100), (1, 200)] m0) 0x8015 (fun t => t.readV 0 == 156 && t.readV 0xF == 0) = true := by decide

/-- V42-20. -/
theorem test_subReg_equal : steps (regs [(0, 5), (1, 5), (0xF, 1)] m0) 0x8015 (fun t => t.readV 0 == 0 && t.readV 0xF == 0) = true := by decide

/-- V42-24. -/
theorem test_shr : steps (regs [(0, 0x81)] m0) 0x8016 (fun t => t.readV 0 == 0x40 && t.readV 0xF == 1 && t.readV 1 == 0) = true := by decide

/-- V42-25. -/
theorem test_shr_legacy : steps (regs [(1, 0x81)] mShift) 0x8016 (fun t => t.readV 0 == 0x40 && t.readV 0xF == 1 && t.readV 1 == 0x81) = true := by decide

/-- V42-29. -/
theorem test_subn : steps (regs [(1, 7), (2, 5)] m0) 0x8127 (fun t => t.readV 1 == 0xFE && t.readV 0xF == 0) = true := by decide

/-- V42-32. -/
theorem test_shl : steps (regs [(3, 0x81)] m0) 0x830E (fun t => t.readV 3 == 0x02 && t.readV 0xF == 1) = true := by decide

/-- V42-34. -/
theorem test_shl_legacy : steps (regs [(0, 0x11), (1, 0xC0)] mShift) 0x801E (fun t => t.readV 0 == 0x80 && t.readV 0xF == 1 && t.readV 1 == 0xC0) = true := by decide

/-- V42-38: a zero mask gives zero whatever the byte drawn. -/
theorem test_rnd : exec (.rnd 3 0x00) m0 = .next (m0.countDraw.setV 3 0).advance := by
  show Host.Outcome.next (State.setV _ 3 (_ &&& 0#8)).advance = _
  rw [BitVec.and_zero]
  rfl

/-! ### Address register and memory (V43) -/

/-- V43-1. -/
theorem test_ldI : steps m0 0xAFFF (fun t => t.i == 0xFFF) = true := by decide

/-- V43-3. -/
theorem test_addI : steps (regs [(2, 1)] (m0.setI 0xFFF)) 0xF21E (fun t => t.i == 0x1000 && t.readV 0xF == 0) = true := by decide

/-- V43-4. -/
theorem test_addI_overflow : faultOf (regs [(2, 1)] (m0.setI 0xFFFF)) 0xF21E = some .undefinedIOverflow := by decide

/-- V43-5. -/
theorem test_ldGlyph : steps (regs [(0, 0xFF)] m0) 0xF029 (fun t => t.i == 1275) = true := by decide

/-- V43-14. -/
theorem test_bcd : steps (regs [(0, 255)] (m0.setI 4093)) 0xF033 (fun t => t.byteAt 4093 == 2 && t.byteAt 4094 == 5 && t.byteAt 4095 == 5) = true := by decide

/-- V43-15. -/
theorem test_bcd_past_the_end : faultOf (regs [(0, 255)] (m0.setI 4094)) 0xF033 = some (.memoryOutOfRange 4096) := by decide

/-- V43-9. -/
theorem test_store : steps (regs [(0, 7), (1, 8)] (m0.setI 0x300)) 0xF055 (fun t => t.byteAt 0x300 == 7 && t.byteAt 0x301 == 0 && t.i == 0x300) = true := by decide

/-- V43-12. -/
theorem test_store_legacy : steps (regs [(5, 9)] (mSl.setI 4090)) 0xF555 (fun t => t.byteAt 4095 == 9 && t.i == 4096) = true := by decide

/-- V43-7 (its last step). -/
theorem test_load : steps (bytes 0x300 [0x11, 0x22, 0x33] (m0.setI 0x300)) 0xF265 (fun t => t.readV 0 == 0x11 && t.readV 2 == 0x33 && t.readV 3 == 0 && t.i == 0x300) = true := by decide

/-- V43-13. -/
theorem test_load_past_the_end : faultOf (m0.setI 4091) 0xF565 = some (.memoryOutOfRange 4096) := by decide

/-! ### Display (V44, S5, S6) -/

/-- V44-1. -/
theorem test_cls : steps (regs [(0xF, 1)] (m0.setFb (dot 3 4))) 0x00E0 (fun t => !pixelOn t.fb 3 4 && !pixelOn t.fb 63 31 && t.readV 0xF == 1) = true := by decide

/-- V44-7. -/
theorem test_drw_collision : steps (bytes 0x300 [0xC0] ((m0.setFb (dot 0 0)).setI 0x300)) 0xD011 (fun t => !pixelOn t.fb 0 0 && pixelOn t.fb 1 0 && !pixelOn t.fb 2 0 && t.readV 0xF == 1) = true := by decide

/-- V44-6. -/
theorem test_drw_wraps : steps (regs [(0, 255), (1, 255)] (bytes 0x300 [0xC0] (m0.setI 0x300))) 0xD011 (fun t => pixelOn t.fb 63 31 && pixelOn t.fb 0 31 && !pixelOn t.fb 1 31 && t.readV 0xF == 0) = true := by decide

/-- V44-11. -/
theorem test_drw_past_the_end : faultOf (m0.setI 4095) 0xD012 = some (.memoryOutOfRange 4096) := by decide

/-! ### Keypad and timers (V45) -/

/-- V45-1. -/
theorem test_skp : steps (regs [(4, 7)] ((m0.setKey 7 true).setPc 0x220)) 0xE49E (fun t => t.pc == 0x224) = true := by decide

/-- V45-4. -/
theorem test_skp_no_masking : faultOf (regs [(4, 0x17)] (m0.setKey 7 true)) 0xE49E = some (.undefinedKeyIndex 0x17) := by decide

/-- V45-2. -/
theorem test_sknp : steps (regs [(4, 7)] ((m0.setKey 7 true).setPc 0x220)) 0xE4A1 (fun t => t.pc == 0x222) = true := by decide

/-- V45-3. -/
theorem test_sknp_key_16 : faultOf (regs [(4, 16)] m0) 0xE4A1 = some (.undefinedKeyIndex 16) := by decide

/-- V45-5. -/
theorem test_ldFromDt : steps (m0.setDt 0x2A) 0xF307 (fun t => t.readV 3 == 0x2A && t.dt == 0x2A) = true := by decide

/-- V45-9. -/
theorem test_ldKey : steps m0 0xF20A (fun t => t.run == .awaitingKey 2 && t.pc == 0x202) = true := by decide

/-- V45-6. -/
theorem test_ldDt : steps (regs [(0, 60)] m0) 0xF015 (fun t => t.dt == 60) = true := by decide

/-- V45-7. -/
theorem test_ldSt : steps (regs [(1, 3)] m0) 0xF118 (fun t => t.st == 3 && t.dt == 0) = true := by decide

/-! ### Fetch and host operations (V40) -/

/-- V40-21. -/
theorem test_undefined_word : faultOf m0 0x5121 = some (.decodeError 0x5121) := by decide

/-- V40-2. -/
theorem test_fetch_at_4095 : step (m0.setPc 4095) = .fault (.memoryOutOfRange 4096) := rfl

/-- V40-4. -/
theorem test_fetch_above : step (m0.setPc 0x10FE) = .fault (.memoryOutOfRange 0x10FE) := rfl

/-- V40-9. -/
theorem test_waiting_step : step (m0.setRun (.awaitingKey 2)) = .next (m0.setRun (.awaitingKey 2)) := rfl

/-- V40-8 (decision D15). -/
theorem test_load_copies_only : op (.load [0x11, 0x22]) (regs [(3, 9)] (bytes 0x200 [0xAA, 0xBB, 0xCC, 0xDD] (m0.setPc 0x20C)))
    (fun t r => t.byteAt 0x201 == 0x22 && t.byteAt 0x202 == 0xCC && t.pc == 0x20C && t.readV 3 == 9 && r == .ok) = true := by
  decide

/-- V40-11 (decision D14). -/
theorem test_tick : op .tick ((m0.setDt 2).setSt 1) (fun t r => t.dt == 1 && t.st == 0 && r == .tone true) = true := by
  decide

/-- V40-13. -/
theorem test_tick_stops_at_zero : op .tick m0 (fun t r => t.dt == 0 && t.st == 0 && r == .tone false) = true := by decide

/-- V45-12. -/
theorem test_key_ends_the_wait : op (.key 0 true) (regs [(0xF, 9)] (m0.setRun (.awaitingKey 0xF)))
    (fun t r => t.readV 0xF == 0 && t.run == .running && t.key 0 && r == .ok) = true := by decide

/-- V45-10 (decision D13). -/
theorem test_held_key_does_not : op (.key 5 true) ((m0.setKey 5 true).setRun (.awaitingKey 2))
    (fun t _ => t.run == .awaitingKey 2) = true := by decide

/-- V40-20. -/
theorem test_pixel : op (.pixel 7 5) (m0.setFb (dot 7 5)) (fun _ r => r == .pixel true) = true := by decide

/-- V40-17 with 10_state.md R35: what KEY reported is what the host reads back. -/
theorem test_keys_read_back : op (.key 3 true) m0 (fun t _ =>
    readBackKeys t == (Vector.replicate 16 false).set 3 true) = true := by decide

/-- 10_state.md R29 at the default table (log 3): glyph A stands at 50..54, and a constructed machine lists no cell. -/
theorem test_default_glyphs : [m0.byteAt 50, m0.byteAt 51, m0.byteAt 52, m0.byteAt 53, m0.byteAt 54, m0.byteAt 80] =
    [0xF0, 0x90, 0xF0, 0x90, 0x90, 0] ∧ Memory.writeAll [] 0 defaultGlyphs = [] := by decide

/-! ### States that meet the hypotheses of the obligations, each clause at a boundary value -/

/-- The reset state with the word `0x1FFE` (a jump to itself) at 4094, the last address a fetch succeeds from. -/
def mLast : State := bytes 4094 [0x1F, 0xFE] (m0.setPc 4094)

theorem test_witness_StepRunsDecodedInstruction : mLast.run = .running ∧ mLast.pc.toNat ≤ 4094 ∧
    decodeWord (mLast.byteAt mLast.pc.toNat ++ mLast.byteAt (mLast.pc.toNat + 1)) = some (.jp 0xFFE) := by decide

theorem test_witness_FetchIsCheckedAndBigEndian : (m0.setPc 4096).run = .running ∧ 4095 < (m0.setPc 4096).pc.toNat ∧
    (m0.setPc 4095).run = .running ∧ (m0.setPc 4095).pc.toNat = 4095 ∧ mLast.run = .running ∧ mLast.pc.toNat ≤ 4094 := by
  decide

theorem test_witness_DecodeErrorExactlyOnUndefinedWords : m0.run = .running ∧ m0.pc.toNat ≤ 4094 ∧
    undefinedWord 0x9AB1 = true ∧ undefinedWord 0x9AB0 = false ∧
    (bytes 512 [0x9A, 0xB1] m0).byteAt 512 ++ (bytes 512 [0x9A, 0xB1] m0).byteAt 513 = 0x9AB1#16 := by decide

theorem test_witness_OnlyAKeyPressLiftsTheWait :
    (m0.setRun (.awaitingKey 2)).run = .awaitingKey 2 ∧ (m0.setRun (.awaitingKey 2)).key 15 = false ∧
    ((m0.setKey 5 true).setRun (.awaitingKey 2)).key 5 = true := by decide

theorem test_witness_FatalConditionIsAbsorbing : (m0.setPc 4095).run = .running ∧
    step (m0.setPc 4095) = .fault (.memoryOutOfRange 4096) ∧
    (m0.setRun (.faulted .stackUnderflow)).run = .faulted .stackUnderflow := ⟨rfl, rfl, rfl⟩

theorem test_witness_DecodeOfEncodeIsIdentity : (Instr.sys 0x0E1).wellFormed = true ∧
    (Instr.drw 0xF 0xF 0xF).wellFormed = true := by decide

theorem test_witness_EncodeOfDecodedIsIdentity : decode [0xF1, 0x65, 0xAA] = some (.load 1, [0xAA]) := by decide

theorem test_witness_DecodeFollowsOpcodeMap : decodeWord 0x8ABE = some (.shl 0xA 0xB) ∧
    (0x00E0#16 &&& (opcodeRow (.sys 0)).mask) = (opcodeRow (.sys 0)).pattern := by decide

theorem test_witness_PlacedWordIsTheOneThatRuns : m0.mem.wf = true ∧ decodeTableWord 16 0xF165 = some (.load 1) := by
  decide

theorem test_witness_StepKeepsInvariant : m0.Inv ∧ step m0 = .next (m0.setPc 514) :=
  ⟨⟨by decide, by decide, fun k h => absurd h (Nat.not_lt_zero k.val)⟩, rfl⟩

theorem test_witness_ReachableStatesMeetInvariant : ∃ s, Reachable s ∧ s.isFaulted = false :=
  ⟨_, Reachable.reset (Vector.replicate 80 0) true true 0, rfl⟩

theorem test_witness_ConfigurationIsConstant : (∀ g sl sh, HostOp.tick ≠ .reset g sl sh) ∧
    perform .tick m0 = .done m0 (.tone false) := ⟨fun _ _ _ h => (by cases h), rfl⟩

/-- One witness for the four rules about every instruction: each kind of writer answers a next state from `m0`. -/
theorem test_witness_whole_machine_rules : storesToMemory (.load 1) = false ∧
    (∃ t, exec (.load 1) m0 = .next t) ∧ (∃ t, exec (.call 0x300) m0 = .next t) ∧ (∃ t, exec (.drw 0 0 1) m0 = .next t) ∧
    (∃ t, exec (.seImm 0 0) m0 = .next t) ∧ (∃ t, exec .ret (calls [0x206] m0) = .next t) :=
  ⟨rfl, ⟨_, rfl⟩, ⟨_, rfl⟩, ⟨_, rfl⟩, ⟨_, rfl⟩, ⟨_, rfl⟩⟩

theorem test_witness_SelfJumpLeavesTheStateUnchanged : mLast.run = .running ∧ mLast.pc.toNat ≤ 4094 ∧
    (0xFFE : Addr12).toNat = mLast.pc.toNat ∧
    [mLast.byteAt mLast.pc.toNat, mLast.byteAt (mLast.pc.toNat + 1)] = encode (.jp 0xFFE) := by decide

theorem test_witness_MemoryAccessesAreCheckedBytes : m0.mem.wf = true ∧ 4095 < 4096 ∧ 4095 ≤ 4095 := by decide

theorem test_witness_JumpSetsPc : m0.run = .running ∧ 4094 < (0xFFF : Addr12).toNat ∧
    (0x200 : Addr12).toNat = m0.pc.toNat := by decide

theorem test_witness_CallPushesReturnAddress : (calls (List.replicate 15 0x300) m0).sp.val < 16 ∧
    (calls (List.replicate 16 0x300) m0).sp.val = 16 := by decide

theorem test_witness_ReturnPopsTopEntry : (0 : Fin 16).val + 1 = (calls [0x206] m0).sp.val ∧
    (15 : Fin 16).val + 1 = (calls (List.replicate 16 0x300) m0).sp.val ∧ m0.sp.val = 0 := by decide

theorem test_witness_ReturnContinuesAfterTheCall :
    ∃ t, exec (.call 0x300) m0 = .next t ∧ sameStack t t := ⟨_, rfl, rfl, rfl⟩

theorem test_witness_SixteenNestedCallsSucceed : m0.sp.val = 0 ∧ (List.replicate 16 (0x300 : Addr12)).length ≤ 16 ∧
    16 < (List.replicate 17 (0x300 : Addr12)).length := by decide

/-- `x ≠ VF` of the flag clauses, at the register below VF. -/
theorem test_witness_flag_clauses : (0xE : Nibble) ≠ vf ∧ (0 : Nibble) ≠ vf := by decide

theorem test_witness_ShiftsReportTheBitOut :
    (0xC0 : Nat) = (if mShift.legacyShift then (regs [(0, 0x11), (1, 0xC0)] mShift).readV 1
      else (regs [(0, 0x11), (1, 0xC0)] mShift).readV 0).toNat := by decide

theorem test_witness_AddToAddressRegister :
    (regs [(2, 0xFE)] (m0.setI 0xFF01)).i.toNat + ((regs [(2, 0xFE)] (m0.setI 0xFF01)).readV 2).toNat ≤ 65535 ∧
    65535 < (regs [(2, 1)] (m0.setI 0xFFFF)).i.toNat + ((regs [(2, 1)] (m0.setI 0xFFFF)).readV 2).toNat := by decide

theorem test_witness_BcdStoresThreeDigits : m0.mem.wf = true ∧ effAddr (m0.setI 4093) 2 ≤ 4095 ∧
    (4095 < effAddr (m0.setI 4094) 2 ∧ ∀ j, j < 2 → effAddr (m0.setI 4094) j ≤ 4095) ∧
    (4095 < effAddr (m0.setI 4096) 0 ∧ ∀ j, j < 0 → effAddr (m0.setI 4096) j ≤ 4095) := by decide

theorem test_witness_StoreWritesTheRegisterBlock : m0.mem.wf = true ∧ effAddr (m0.setI 4080) (0xF : Nibble).toNat ≤ 4095 ∧
    (0xF : Nibble).toNat ≤ (0xF : Nibble).toNat ∧ 4095 < effAddr (m0.setI 4081) 15 ∧
    ∀ j, j < 15 → effAddr (m0.setI 4081) j ≤ 4095 := by decide

theorem test_witness_LoadReadsTheRegisterBlock : effAddr (m0.setI 4095) (0 : Nibble).toNat ≤ 4095 ∧
    0 ≤ (0 : Nibble).toNat ∧ 4095 < effAddr (m0.setI 65535) 0 ∧ ∀ j, j < 0 → effAddr (m0.setI 65535) j ≤ 4095 := by decide

theorem test_witness_LoadRestoresWhatStoreStored : m0.mem.wf = true ∧
    ∃ t u, exec (.store 1) (m0.setI 0x300) = .next t ∧ sameMemory t u ∧ u.i = (m0.setI 0x300).i :=
  ⟨rfl, _, _, rfl, fun _ => rfl, rfl⟩

/-- A machine whose sprite byte at `I = 4095` has its leftmost bit set, with the pixel (63, 31) on. -/
def mSprite : State := regs [(0, 63), (1, 31)] (bytes 4095 [0x80] ((m0.setFb (dot 63 31)).setI 4095))

theorem test_witness_DrawTogglesCoveredPixels : (∀ r, r < (1 : Nibble).toNat → effAddr mSprite r ≤ 4095) ∧
    spriteCovers mSprite 0 1 1 63 31 ∧ pixelOn mSprite.fb 63 31 = true ∧ ¬spriteCovers mSprite 0 1 1 62 31 :=
  ⟨by decide, ⟨0, 0, by decide, by decide, by decide, by decide, by decide⟩, by decide,
    fun ⟨r, c, hr, hc, hbit, hx, _⟩ => by
      have hr0 : r = 0 := Nat.lt_one_iff.mp hr
      subst hr0
      have : ∀ c < 8, (mSprite.byteAt (effAddr mSprite 0)).getLsbD (7 - c) = true →
          (62 : Fin 64).val ≠ ((mSprite.readV 0).toNat + c) % 64 := by decide
      exact this c hc hbit hx⟩

theorem test_witness_DrawTogglesCoveredPixels_nothing_covered : ∀ px py, ¬spriteCovers m0 0 1 0 px py :=
  fun _ _ ⟨_, _, hr, _⟩ => Nat.not_lt_zero _ hr

theorem test_witness_DrawRaisesAtTheFirstBadRow : 1 < (2 : Nibble).toNat ∧ 4095 < effAddr (m0.setI 4095) 1 ∧
    ∀ j, j < 1 → effAddr (m0.setI 4095) j ≤ 4095 := by decide

theorem test_witness_DrawingTwiceRestoresTheScreen : (0 : Nibble) ≠ vf ∧ (1 : Nibble) ≠ vf ∧
    ∃ t, exec (.drw 0 1 1) mSprite = .next t := ⟨by decide, by decide, _, rfl⟩

theorem test_witness_SkipOnKey : ((regs [(4, 15)] m0).readV 4).toNat = (15 : Nibble).toNat ∧
    15 < ((regs [(4, 16)] m0).readV 4).toNat := by decide

theorem test_witness_KeyReportsAndEndsTheWait :
    (m0.setRun (.awaitingKey 0xF)).isFaulted = false ∧ (m0.setRun (.awaitingKey 0xF)).key 0 = false ∧
    m0.isFaulted = false ∧ m0.run = .running ∧ ((m0.setKey 5 true).setRun (.awaitingKey 2)).key 5 = true ∧
    (15 : Nibble) ≠ 0 := by decide

theorem test_witness_LoadCopiesTheProgram : m0.isFaulted = false ∧ m0.mem.wf = true ∧
    (List.replicate 3584 (0 : Byte)).length ≤ 3584 := by
  refine ⟨by decide, by decide, ?_⟩
  rw [List.length_replicate]

theorem test_witness_OversizeLoadChangesNothing : m0.isFaulted = false ∧
    3584 < (List.replicate 3585 (0 : Byte)).length := by
  refine ⟨by decide, ?_⟩
  rw [List.length_replicate]
  decide

theorem test_witness_TicksCountDownAndFireTones : ((m0.setDt 255).setSt 3).isFaulted = false := by decide

theorem test_witness_PixelReadsTheFramebuffer : m0.isFaulted = false ∧ (63 : Fin 64).val < 64 := by decide

theorem test_witness_CallsOutsideTheirDomainAreRefused : 15 < 16 ∧ (63 < 64 ∨ 31 < 0) ∧ (63 < 0 ∨ 31 < 32) := by decide

theorem test_witness_ResetValues : (⟨defaultGlyphs.toArray, rfl⟩ : Vector Byte 80).toList = defaultGlyphs ∧
    80 ≤ 80 ∧ (State.construct (Vector.replicate 80 1) true false).byteAt 79 = 1 := by decide

theorem test_witness_KeysReadBackAsReported : m0.isFaulted = false ∧ (15 : Nibble) ≠ 0 ∧
    (∀ k pressed, HostOp.tick ≠ .key k pressed) ∧ (∀ g sl sh, HostOp.tick ≠ .reset g sl sh) ∧
    perform .tick m0 = .done m0 (.tone false) :=
  ⟨rfl, by decide, fun _ _ h => (by cases h), fun _ _ _ h => (by cases h), rfl⟩

/-- Two states that differ in a register, `pc` and a nonzero ST, and show the host the same; and two faulted ones. -/
theorem test_witness_HostObservesOnlyItsPorts : HostOp.tick ≠ .step ∧
    (regs [(0, 1)] ((m0.setSt 1).setPc 0)).isFaulted = (m0.setSt 255).isFaulted ∧
    ((regs [(0, 1)] ((m0.setSt 1).setPc 0)).st = 0 ↔ (m0.setSt 255).st = 0) ∧
    sameDisplay (m0.setSt 255) (regs [(0, 1)] ((m0.setSt 1).setPc 0)) ∧
    (∀ k : Nibble, (regs [(0, 1)] ((m0.setSt 1).setPc 0)).key k = (m0.setSt 255).key k) ∧
    (m0.setRun (.faulted .stackOverflow)).isFaulted = (m0.setRun (.faulted .stackUnderflow)).isFaulted :=
  ⟨fun h => (by cases h), rfl, by decide, fun _ _ => rfl, fun _ => rfl, rfl⟩

end Sys2Proof.Tests
end

/-! PROOFS. Memory (20_memory.md R61, R62): what one checked read and one checked write answer. -/

namespace Sys2Proof.Proofs

open Sys2Proof Sys2Proof.Machine

/-- Settles O21: the range check decides between the fault and the unchecked access, and the unchecked write keeps the
canonical form and changes one byte (`Memory.write_wf`, `Memory.read_write`). -/
theorem memoryAccessesAreCheckedBytes : Obligations.MemoryAccessesAreCheckedBytes := by
  intro m addr v hm
  refine ⟨fun hout => ⟨memRead_outOfRange hout, memWrite_outOfRange hout⟩, fun hle => ?_⟩
  have hin : addr < 4096 := Nat.lt_succ_of_le hle
  refine ⟨memRead_inRange hin, m.write addr v, memWrite_inRange hin, Memory.write_wf v hin hm, ?_, fun b hb => ?_⟩
  · rw [Memory.read_write hm, if_pos rfl]
  · rw [Memory.read_write hm, if_neg hb]

end Sys2Proof.Proofs

/-! PROOFS. The step and the host operations (40_step_and_host_ops.md R122, R128, R131): a failed fetch, an oversize
LOAD and a pixel read. -/

namespace Sys2Proof.Proofs

open Sys2Proof Sys2Proof.Machine

/-- A running machine whose fetch fails ends its STEP with the cause of the fetch (R121). -/
theorem step_of_fetch_error {s : State} {c : Fault} (hrun : s.run = .running) (hf : fetch s = .error c) :
    step s = .fault c := by
  simp only [step, cycle, hrun, hf, raise]

/-- An oversize program is `LoadError` and leaves the state it was given (R128). -/
theorem loadProgram_oversize {bytes : List Byte} (h : Config.maxProgLen < bytes.length) (s : State) :
    loadProgram bytes s = (s, .loadError) :=
  if_neg (Nat.not_le_of_lt h)

/-- A PIXEL call inside its domain reads the framebuffer, unless a fatal condition came before (R131, R135). -/
theorem perform_pixel_inDomain (px : Fin 64) (py : Fin 32) (s : State) :
    perform (.pixel px.val py.val) s = beforeFatal s (getPixel px py s) :=
  dif_pos ⟨px.isLt, py.isLt⟩

/-- Settles O2: above 4094 the fetch names the larger of `pc` and 4096 (`fetch_outOfRange`), and STEP raises that; up
to 4094 both reads succeed (`fetch_inRange`). -/
theorem fetchIsCheckedAndBigEndian : Obligations.FetchIsCheckedAndBigEndian := by
  intro s hrun
  have hfault (h : 4094 < s.pc.toNat) : step s = .fault (.memoryOutOfRange (max s.pc.toNat 4096)) :=
    step_of_fetch_error hrun (fetch_outOfRange h)
  refine ⟨fun habove => ?_, fun hlast => ?_, fetch_inRange⟩
  · rw [hfault (by omega), Nat.max_eq_left habove]
  · rw [hfault (by omega), hlast]
    rfl

/-- Settles O52: before a fatal condition LOAD happens, and an oversize one answers the state it was given. -/
theorem oversizeLoadChangesNothing : Obligations.OversizeLoadChangesNothing := by
  intro s bytes hs hlen
  calc perform (.load bytes) s
      = beforeFatal s (loadProgram bytes s) := rfl
    _ = beforeFatal s (s, .loadError) := by rw [loadProgram_oversize hlen]
    _ = .done s .loadError := beforeFatal_notFaulted hs _

/-- Settles O54: column and row are inside the domain by their types, so the call happens and answers `FB[y][x]`. -/
theorem pixelReadsTheFramebuffer : Obligations.PixelReadsTheFramebuffer := by
  intro s px py hs
  rw [perform_pixel_inDomain, beforeFatal_notFaulted hs, getPixel]

end Sys2Proof.Proofs

/-! PROOFS. Control flow (41_flow.md R154, R155, R157, R158): instructions that write nothing but `pc`. Each answers the
state it was given with another `pc`, so one frame lemma about `setPc` serves them all. -/

namespace Sys2Proof.Proofs

open Sys2Proof Sys2Proof.Machine

/-- A write of `pc` leaves everything else as it was. -/
theorem onlyRegs_setPc (dest : List Nibble) (s : State) (w : Word) : onlyRegs dest s (s.setPc w) :=
  ⟨fun r _ => State.readV_setPc s w r, fun addr => State.byteAt_setPc s w addr, ⟨rfl, rfl⟩, ⟨rfl, rfl, rfl⟩,
    fun _ _ => rfl, ⟨fun k => State.key_setPc s w k, rfl, rfl, rfl⟩, rfl⟩

/-- A write of the `pc` a state has is no change. -/
theorem setPc_self (s : State) : s.setPc s.pc = s := rfl

/-- A skip is a write of one of its two successors to `pc` (R150). -/
theorem skipIf_eq_setPc (s : State) (c : Bool) : s.skipIf c = s.setPc (if c then s.pc + 4 else s.pc + 2) := by
  cases c <;> rfl

/-- A skip leaves everything but `pc` as it was. -/
theorem onlyRegs_skipIf (dest : List Nibble) (s : State) (c : Bool) : onlyRegs dest s (s.skipIf c) :=
  skipIf_eq_setPc s c ▸ onlyRegs_setPc dest s _

theorem exec_sys (s : State) (nnn : Addr12) : exec (.sys nnn) s = .next (s.setPc (s.pc + 2)) := rfl

theorem exec_jp (s : State) (nnn : Addr12) : exec (.jp nnn) s = .next (s.setPc (zextAddr nnn)) := rfl

theorem exec_seImm (s : State) (x : Nibble) (kk : Byte) :
    exec (.seImm x kk) s = .next (s.skipIf (s.readV x == kk)) := rfl

theorem exec_sneImm (s : State) (x : Nibble) (kk : Byte) :
    exec (.sneImm x kk) s = .next (s.skipIf (s.readV x != kk)) := rfl

/-- A running machine whose `pc` is above 4094 but still a 12-bit address is at 4095: the fetch reads that byte and
fails at 4096. -/
theorem step_of_pc_4095 {s : State} (hrun : s.run = .running) (h : 4094 < s.pc.toNat) (h12 : s.pc.toNat < 4096) :
    step s = .fault (.memoryOutOfRange 4096) := by
  rw [step_of_fetch_error hrun (fetch_outOfRange h), Nat.max_eq_right h12.le]

/-- Settles O22: the next state is the state with `pc + 2`. -/
theorem sysIsANoOp : Obligations.SysIsANoOp := fun s nnn =>
  ⟨s.setPc (s.pc + 2), exec_sys s nnn, rfl, onlyRegs_setPc [] s _⟩

/-- Settles O23: the next state is the state with `pc = nnn`; `nnn` has 12 bits, so above 4094 it is 4095, and a jump to
its own address writes the `pc` there is. -/
theorem jumpSetsPc : Obligations.JumpSetsPc := by
  intro s nnn
  have hpc : (s.setPc (zextAddr nnn)).pc.toNat = nnn.toNat := zextAddr_toNat nnn
  refine ⟨s.setPc (zextAddr nnn), exec_jp s nnn, hpc, onlyRegs_setPc [] s _, fun hrun habove => ?_, fun hself => ?_⟩
  · exact step_of_pc_4095 hrun (hpc ▸ habove) (hpc ▸ nnn.isLt)
  · have hown : zextAddr nnn = s.pc := BitVec.eq_of_toNat_eq ((zextAddr_toNat nnn).trans hself)
    rw [hown, setPc_self]

/-- Settles O29: each is a skip on its test (`State.skipIf_pc`), and a skip writes nothing but `pc`. -/
theorem skipOnImmediate : Obligations.SkipOnImmediate := by
  intro s x kk
  refine ⟨⟨_, exec_seImm s x kk, ?_, onlyRegs_skipIf [] s _⟩, ⟨_, exec_sneImm s x kk, ?_, onlyRegs_skipIf [] s _⟩⟩
  · simp only [State.skipIf_pc, beq_iff_eq]
  · simp only [State.skipIf_pc, bne_iff_ne]

end Sys2Proof.Proofs

/-! PROOFS. Register loads, immediate addition and logic (42_alu.md R172 to R177): instructions that write one register
and `pc`. Each answers `(s.setV x b).advance` for a byte `b` of its own, so the read-back and the frame of that state are
said once. -/

namespace Sys2Proof.Proofs

open Sys2Proof Sys2Proof.Machine

/-- The register just written reads as the byte written, after `pc` has moved on. -/
theorem readV_setV_advance (s : State) (x : Nibble) (b : Byte) : (s.setV x b).advance.readV x = b := by
  rw [State.readV_advance, State.readV_setV, if_pos rfl]

/-- A write of `V[x]` followed by the move of `pc` leaves every other register and everything else as it was. -/
theorem onlyRegs_setV_advance (s : State) (x : Nibble) (b : Byte) : onlyRegs [x] s (s.setV x b).advance := by
  refine ⟨fun r hr => ?_, fun _ => rfl, ⟨rfl, rfl⟩, ⟨rfl, rfl, rfl⟩, fun _ _ => rfl, ⟨fun _ => rfl, rfl, rfl, rfl⟩, rfl⟩
  have hne : r ≠ x := List.ne_of_not_mem_cons hr
  rw [State.readV_advance, State.readV_setV, if_neg hne]

theorem exec_ldImm (s : State) (x : Nibble) (kk : Byte) : exec (.ldImm x kk) s = .next (s.setV x kk).advance := rfl

theorem exec_addImm (s : State) (x : Nibble) (kk : Byte) :
    exec (.addImm x kk) s = .next (s.setV x (s.readV x + kk)).advance := rfl

theorem exec_ldReg (s : State) (x y : Nibble) : exec (.ldReg x y) s = .next (s.setV x (s.readV y)).advance := rfl

theorem exec_orReg (s : State) (x y : Nibble) :
    exec (.orReg x y) s = .next (s.setV x (s.readV x ||| s.readV y)).advance := rfl

theorem exec_andReg (s : State) (x y : Nibble) :
    exec (.andReg x y) s = .next (s.setV x (s.readV x &&& s.readV y)).advance := rfl

theorem exec_xorReg (s : State) (x y : Nibble) :
    exec (.xorReg x y) s = .next (s.setV x (s.readV x ^^^ s.readV y)).advance := rfl

/-- Settles O31: both write `V[x]` alone; the addition of bytes is the sum modulo 256 (`BitVec.toNat_add`). -/
theorem loadAndAddImmediate : Obligations.LoadAndAddImmediate := by
  intro s x kk
  refine ⟨⟨_, exec_ldImm s x kk, readV_setV_advance s x _, rfl, onlyRegs_setV_advance s x _⟩,
    ⟨_, exec_addImm s x kk, ?_, rfl, onlyRegs_setV_advance s x _⟩⟩
  rw [readV_setV_advance, BitVec.toNat_add]

/-- Settles O32: all four write `V[x]` alone; each bit of the byte written is the operation on the bits of the operands
(`BitVec.getLsbD_or`, `BitVec.getLsbD_and`, `BitVec.getLsbD_xor`). -/
theorem copyAndLogic : Obligations.CopyAndLogic := by
  intro s x y
  refine ⟨⟨_, exec_ldReg s x y, readV_setV_advance s x _, rfl, onlyRegs_setV_advance s x _⟩,
    ⟨_, exec_orReg s x y, fun b => ?_, rfl, onlyRegs_setV_advance s x _⟩,
    ⟨_, exec_andReg s x y, fun b => ?_, rfl, onlyRegs_setV_advance s x _⟩,
    ⟨_, exec_xorReg s x y, fun b => ?_, rfl, onlyRegs_setV_advance s x _⟩⟩
  · rw [readV_setV_advance, BitVec.getLsbD_or]
  · rw [readV_setV_advance, BitVec.getLsbD_and]
  · rw [readV_setV_advance, BitVec.getLsbD_xor]

end Sys2Proof.Proofs

/-! PROOFS. Address register and memory blocks (43_index_memory.md R200, R202 to R206). Each instruction here answers
the state it was given with registers, memory or `I` replaced and `pc` moved on, so what all of them leave unchanged is
said once. A block of bytes is one ascending sequence of accesses, which raises at its first address above 4095. -/

namespace Sys2Proof.Proofs

open Sys2Proof Sys2Proof.Machine

/-- The frame of this family: stack, timers, display, keys, RUN, flags and free draws are unchanged. Registers, memory,
`I` and `pc` are what an instruction of the family may write. -/
def sameOutsideBlock (s t : State) : Prop :=
  sameStack s t ∧ t.dt = s.dt ∧ t.st = s.st ∧ sameDisplay s t ∧ sameControl s t ∧ t.draws = s.draws

theorem sameOutsideBlock_refl (s : State) : sameOutsideBlock s s :=
  ⟨⟨rfl, rfl⟩, rfl, rfl, fun _ _ => rfl, ⟨fun _ => rfl, rfl, rfl, rfl⟩, rfl⟩

theorem sameOutsideBlock_setMem (s : State) (m : Memory) : sameOutsideBlock s (s.setMem m) :=
  sameOutsideBlock_refl s

theorem sameOutsideBlock_setVPrefix (s : State) (bytes : List Byte) : sameOutsideBlock s (s.setVPrefix bytes) :=
  ⟨⟨State.setVPrefix_sp s bytes, State.setVPrefix_stack s bytes⟩, State.setVPrefix_dt s bytes,
    State.setVPrefix_st s bytes, fun px py => by rw [State.setVPrefix_fb],
    ⟨State.key_setVPrefix s bytes, State.setVPrefix_run s bytes, State.setVPrefix_legacySl s bytes,
      State.setVPrefix_legacyShift s bytes⟩, State.setVPrefix_draws s bytes⟩

theorem sameOutsideBlock.setI {s u : State} (h : sameOutsideBlock s u) (w : Word) : sameOutsideBlock s (u.setI w) := h

theorem sameOutsideBlock.advance {s u : State} (h : sameOutsideBlock s u) : sameOutsideBlock s u.advance := h

/-- Of the addresses `a, a + 1, ..` the first above 4095 is `a` itself, or 4096. -/
theorem max_eq_of_firstAbove {a k : Nat} (habove : 4095 < a + k) (hfirst : ∀ j, j < k → a + j ≤ 4095) :
    max a 4096 = a + k := by
  cases k with
  | zero => omega
  | succ j =>
    have hlast : a + j ≤ 4095 := hfirst j (Nat.lt_succ_self j)
    omega

/-- After an ascending store in range, the address of an entry reads as that entry. -/
theorem read_writeAll_entry {m : Memory} {a k : Nat} {vs : List Byte} {b : Byte} (hfit : a + vs.length ≤ 4096)
    (hm : m.wf = true) (hb : vs[k]? = some b) : (m.writeAll a vs).read (a + k) = b := by
  rw [Memory.read_writeAll hfit hm, if_pos (Nat.le_add_right a k), Nat.add_sub_cancel_left, hb, Option.getD_some]

/-- After an ascending store in range, an address outside the block reads as before. -/
theorem read_writeAll_outside {m : Memory} {a addr : Nat} {vs : List Byte} (hfit : a + vs.length ≤ 4096)
    (hm : m.wf = true) (hout : addr < a ∨ a + vs.length ≤ addr) : (m.writeAll a vs).read addr = m.read addr := by
  rw [Memory.read_writeAll hfit hm]
  split
  · next hle => rw [List.getElem?_eq_none (by omega), Option.getD_none]
  · rfl

/-- The `I` that `Fx55` and `Fx65` leave: `I + x + 1` with LEGACY_SL, `I` without (R204, R205). -/
def legacyI (s : State) (x : Nibble) : Word :=
  if s.legacySl then BitVec.ofNat 16 (s.i.toNat + (x.toNat + 1)) else s.i

/-- The LEGACY_SL increment after a block of `s`, in a state `u` that has the `I` and the flag of `s`. -/
theorem legacyAdvanceI_eq_setI {s u : State} {x : Nibble} (hi : u.i = s.i) (hsl : u.legacySl = s.legacySl)
    (h : s.i.toNat + x.toNat ≤ 4095) : legacyAdvanceI u x = .ok (u.setI (legacyI s x)) := by
  rw [legacyAdvanceI_fits x (hi ▸ h), legacyI, hi, hsl, ← hi]
  split <;> rfl

/-- The increment is exact, since the block ended below 4096 (R206). -/
theorem legacyI_toNat {s : State} {x : Nibble} (h : s.i.toNat + x.toNat ≤ 4095) :
    (legacyI s x).toNat = if s.legacySl then s.i.toNat + x.toNat + 1 else s.i.toNat := by
  rw [legacyI]
  split
  · rw [BitVec.toNat_ofNat, Nat.mod_eq_of_lt (by omega), Nat.add_assoc]
  · rfl

theorem exec_ldI (s : State) (nnn : Addr12) : exec (.ldI nnn) s = .next (s.setI (zextAddr nnn)).advance := rfl

theorem exec_ldGlyph (s : State) (x : Nibble) :
    exec (.ldGlyph x) s = .next (s.setI (zextByte (s.readV x) * 5)).advance := rfl

theorem decimalDigits_length (b : Byte) : (decimalDigits b).length = 3 := rfl

theorem exec_bcd_inRange {s : State} {x : Nibble} (h : s.i.toNat + 2 ≤ 4095) :
    exec (.bcd x) s = .next (s.setMem (s.mem.writeAll s.i.toNat (decimalDigits (s.readV x)))).advance := by
  have hlen := decimalDigits_length (s.readV x)
  have hstore := writeBytes_inRange (m := s.mem) (a := s.i.toNat) (vs := decimalDigits (s.readV x)) (by omega)
  simp only [exec, execBcd, Nat.add_zero, hstore, except_bind_ok, except_pure, settle_ok]

theorem exec_bcd_outOfRange {s : State} {x : Nibble} (h : 4095 < s.i.toNat + 2) :
    exec (.bcd x) s = .fault (.memoryOutOfRange (max s.i.toNat 4096)) := by
  have hlen := decimalDigits_length (s.readV x)
  have hstore := writeBytes_outOfRange (m := s.mem) (a := s.i.toNat) (List.ne_nil_of_length_eq_add_one hlen) (by omega)
  simp only [exec, execBcd, Nat.add_zero, hstore, except_bind_error, settle_error]

theorem exec_store_inRange {s : State} {x : Nibble} (h : s.i.toNat + x.toNat ≤ 4095) :
    exec (.store x) s =
      .next ((s.setMem (s.mem.writeAll s.i.toNat (regsUpTo s x))).setI (legacyI s x)).advance := by
  have hlen := regsUpTo_length s x
  have hstore := writeBytes_inRange (m := s.mem) (a := s.i.toNat) (vs := regsUpTo s x) (by omega)
  have hadvance (m : Memory) := legacyAdvanceI_eq_setI (State.setMem_i s m) (State.setMem_legacySl s m) h
  simp only [exec, execStore, Nat.add_zero, hstore, hadvance, except_bind_ok, except_pure, settle_ok]

theorem exec_store_outOfRange {s : State} {x : Nibble} (h : 4095 < s.i.toNat + x.toNat) :
    exec (.store x) s = .fault (.memoryOutOfRange (max s.i.toNat 4096)) := by
  have hlen := regsUpTo_length s x
  have hstore := writeBytes_outOfRange (m := s.mem) (a := s.i.toNat) (List.ne_nil_of_length_eq_add_one hlen) (by omega)
  simp only [exec, execStore, Nat.add_zero, hstore, except_bind_error, settle_error]

/-- The bytes `MEM[I..I+x]` that `Fx65` loads (R205). -/
def blockAt (s : State) (x : Nibble) : List Byte := (List.range (x.toNat + 1)).map fun k => s.byteAt (s.i.toNat + k)

/-- Entry `k` of the block is the byte at `I + k`, for `k` up to `x`. -/
theorem blockAt_getElem? (s : State) (x : Nibble) (k : Nat) :
    (blockAt s x)[k]? = if k ≤ x.toNat then some (s.byteAt (s.i.toNat + k)) else none := by
  rw [blockAt, List.getElem?_map]
  split
  · next hle => rw [List.getElem?_range (Nat.lt_succ_of_le hle), Option.map_some]
  · next hgt => rw [List.getElem?_eq_none (by rw [List.length_range]; omega), Option.map_none]

theorem exec_load_inRange {s : State} {x : Nibble} (h : s.i.toNat + x.toNat ≤ 4095) :
    exec (.load x) s = .next ((s.setVPrefix (blockAt s x)).setI (legacyI s x)).advance := by
  have hread : readBytes s.mem s.i.toNat (x.toNat + 1) = .ok (blockAt s x) := readBytes_inRange (by omega)
  have hadvance (bs : List Byte) := legacyAdvanceI_eq_setI (State.setVPrefix_i s bs) (State.setVPrefix_legacySl s bs) h
  simp only [exec, execLoad, Nat.add_zero, hread, hadvance, except_bind_ok, except_pure, settle_ok]

theorem exec_load_outOfRange {s : State} {x : Nibble} (h : 4095 < s.i.toNat + x.toNat) :
    exec (.load x) s = .fault (.memoryOutOfRange (max s.i.toNat 4096)) := by
  have hread := readBytes_outOfRange (m := s.mem) (a := s.i.toNat) (Nat.succ_pos x.toNat) (by omega)
  simp only [exec, execLoad, Nat.add_zero, hread, except_bind_error, settle_error]

/-- Settles O37: both write `I` alone; a byte times 5 is at most 1275, so the product of words is exact. -/
theorem loadAddressRegister : Obligations.LoadAddressRegister := by
  intro s
  have hframe (w : Word) : sameOutsideBlock s (s.setI w).advance := ((sameOutsideBlock_refl s).setI w).advance
  refine ⟨fun nnn => ⟨_, exec_ldI s nnn, zextAddr_toNat nnn, rfl, fun _ _ => rfl, fun _ => rfl, hframe _⟩,
    fun x => ⟨_, exec_ldGlyph s x, ?_, rfl, fun _ _ => rfl, fun _ => rfl, hframe _⟩⟩
  have hbyte : (s.readV x).toNat < 256 := (s.readV x).isLt
  calc (zextByte (s.readV x) * 5).toNat
      = (s.readV x).toNat * 5 % 2 ^ 16 := by rw [BitVec.toNat_mul, zextByte_toNat]; rfl
    _ = (s.readV x).toNat * 5 := Nat.mod_eq_of_lt (by omega)

/-- Settles O39: in range the digits are stored as one block (`read_writeAll_entry`, `read_writeAll_outside`); out of
range the block raises at its first bad address (`max_eq_of_firstAbove`). -/
theorem bcdStoresThreeDigits : Obligations.BcdStoresThreeDigits := by
  simp only [Obligations.BcdStoresThreeDigits, effAddr_eq, Nat.add_zero]
  intro s x hm
  refine ⟨fun hin => ?_, fun k hk habove hfirst => ?_⟩
  · have hfit : s.i.toNat + (decimalDigits (s.readV x)).length ≤ 4096 := Nat.succ_le_succ hin
    obtain ⟨hstack, hdt, hst, hrest⟩ :=
      (sameOutsideBlock_setMem s (s.mem.writeAll s.i.toNat (decimalDigits (s.readV x)))).advance
    refine ⟨_, exec_bcd_inRange hin, ?_, ?_, ?_, fun addr => read_writeAll_outside hfit hm, rfl, fun _ _ => rfl,
      hstack, ⟨rfl, hdt, hst⟩, hrest⟩
    · have hundreds := read_writeAll_entry (k := 0) hfit hm rfl
      exact (congrArg BitVec.toNat hundreds).trans BitVec.toNat_udiv
    · have htens := read_writeAll_entry (k := 1) hfit hm rfl
      exact (congrArg BitVec.toNat htens).trans (BitVec.toNat_umod.trans (by rw [BitVec.toNat_udiv]; rfl))
    · have hones := read_writeAll_entry (k := 2) hfit hm rfl
      exact (congrArg BitVec.toNat hones).trans BitVec.toNat_umod
  · rw [exec_bcd_outOfRange (by omega), max_eq_of_firstAbove habove hfirst]

/-- Settles O40: as for `Fx33`, with the block `V[0..x]` (`regsUpTo_getElem?`) and the increment of `I`
(`legacyI_toNat`). -/
theorem storeWritesTheRegisterBlock : Obligations.StoreWritesTheRegisterBlock := by
  simp only [Obligations.StoreWritesTheRegisterBlock, effAddr_eq, Nat.add_zero]
  intro s x hm
  refine ⟨fun hin => ?_, fun k hk habove hfirst => ?_⟩
  · have hlen := regsUpTo_length s x
    have hfit : s.i.toNat + (regsUpTo s x).length ≤ 4096 := by omega
    refine ⟨_, exec_store_inRange hin, fun k hk => ?_, fun addr hout => ?_, legacyI_toNat hin, rfl, fun _ _ => rfl,
      ((sameOutsideBlock_setMem s _).setI _).advance⟩
    · exact read_writeAll_entry hfit hm (regsUpTo_getElem? s x k hk)
    · exact read_writeAll_outside hfit hm (by omega)
  · rw [exec_store_outOfRange (by omega), max_eq_of_firstAbove habove hfirst]

/-- Settles O41: a register up to `x` holds its entry of the block read (`blockAt_getElem?`), one above it what it
held. -/
theorem loadReadsTheRegisterBlock : Obligations.LoadReadsTheRegisterBlock := by
  simp only [Obligations.LoadReadsTheRegisterBlock, effAddr_eq]
  intro s x
  refine ⟨fun hin => ?_, fun k hk habove hfirst => ?_⟩
  · refine ⟨_, exec_load_inRange hin, fun k => ?_, fun addr => ?_, legacyI_toNat hin, ?_,
      ((sameOutsideBlock_setVPrefix s _).setI _).advance⟩
    · rw [State.readV_advance, State.readV_setI, State.readV_setVPrefix, blockAt_getElem?]
      split <;> rfl
    · rw [State.byteAt_advance, State.byteAt_setI, State.byteAt_setVPrefix]
    · rw [State.advance_pc, State.setI_pc, State.setVPrefix_pc]
  · rw [exec_load_outOfRange (by omega), max_eq_of_firstAbove habove hfirst]

end Sys2Proof.Proofs

/-! PROOFS. The display (44_display.md R222). `00E0` answers `(s.setFb blankFramebuffer).advance`: the pixels of the blank
framebuffer are off (`pixelOn_blank`), and the frame of a framebuffer replacement is said once, for any framebuffer. -/

namespace Sys2Proof.Proofs

open Sys2Proof Sys2Proof.Machine

/-- The frame of a framebuffer replacement: everything but the display and `pc` is unchanged. -/
def sameOutsideDisplay (s t : State) : Prop :=
  sameRegsBut [] s t ∧ sameMemory s t ∧ sameStack s t ∧ sameIAndTimers s t ∧ sameControl s t ∧ t.draws = s.draws

theorem sameOutsideDisplay_setFb_advance (s : State) (fb : Framebuffer) :
    sameOutsideDisplay s (s.setFb fb).advance := by
  refine ⟨fun r _ => ?_, fun addr => ?_, ⟨rfl, rfl⟩, ⟨rfl, rfl, rfl⟩, ⟨fun k => ?_, rfl, rfl, rfl⟩, rfl⟩
  · rw [State.readV_advance, State.readV_setFb]
  · rw [State.byteAt_advance, State.byteAt_setFb]
  · rw [State.key_advance, State.key_setFb]

theorem exec_cls (s : State) : exec .cls s = .next (s.setFb blankFramebuffer).advance := rfl

/-- Settles O43: the framebuffer `00E0` leaves is the blank one (`pixelOn_blank`), and replacing the framebuffer touches
nothing else (`sameOutsideDisplay_setFb_advance`). -/
theorem clearTurnsEveryPixelOff : Obligations.ClearTurnsEveryPixelOff := by
  intro s
  refine ⟨_, exec_cls s, fun px py => ?_, ?_, sameOutsideDisplay_setFb_advance s blankFramebuffer⟩
  · rw [State.advance_fb, State.setFb_fb, pixelOn_blank]
  · rw [State.advance_pc, State.setFb_pc]

end Sys2Proof.Proofs

/-! PROOFS. Reset (70_reset_and_hazards.md R301): RESET takes `pc` and `RUN` from the model's reset state, whose entry
address is the constant `Config.progBase`; the glyph bytes and the flags it is given touch neither. -/

namespace Sys2Proof.Proofs

open Sys2Proof Sys2Proof.Machine

theorem reset_pc : State.reset.pc = BitVec.ofNat 16 Config.progBase := rfl

theorem reset_run : State.reset.run = .running := rfl

theorem construct_pc (glyphs : Vector Byte 80) (sl shift : Bool) :
    (State.construct glyphs sl shift).pc = State.reset.pc := rfl

theorem construct_run (glyphs : Vector Byte 80) (sl shift : Bool) :
    (State.construct glyphs sl shift).run = State.reset.run := rfl

/-- Settles O56: a constructed machine has the `pc` and `RUN` of the reset state (`construct_pc`, `construct_run`), and
that state is running at `Config.progBase`, which is 512. -/
theorem entryPointIs512 : Obligations.EntryPointIs512 := by
  have hpc : State.reset.pc = 512 := reset_pc
  refine ⟨fun glyphs sl shift => ⟨?_, ?_⟩, hpc, reset_run⟩
  · rw [construct_pc, hpc]
  · rw [construct_run, reset_run]

end Sys2Proof.Proofs

/-! PROOFS. Decoder and encoder against each other (30_encoding.md R90 to R97). Both are given on words, so the facts are
about `decodeWord` and `encodeWord`; the two bytes of a word compose to it again (`decode_bytes`). -/

namespace Sys2Proof.Proofs

open Sys2Proof Sys2Proof.Machine

/-- The word of a well-formed instruction decodes to it: the fields of the word are the operands (`fieldOp_nnn` and its
companions), and the digit `op` and the sub-discriminant choose the row. -/
theorem decodeWord_encodeWord {i : Instr} (h : i.wellFormed = true) : decodeWord (encodeWord i) = some i := by
  cases i with
  | cls | ret => rfl
  | sys nnn =>
    obtain ⟨hcls, hret⟩ : nnn ≠ 0x0E0#12 ∧ nnn ≠ 0x0EE#12 := by simpa [Instr.wellFormed] using h
    rw [encodeWord, decodeWord_op0 (fieldOp_nnn _ _), decodeGroup0, fieldNnn_nnn, if_neg hcls, if_neg hret]
  | jp => rw [encodeWord, decodeWord_op1 (fieldOp_nnn _ _), fieldNnn_nnn]
  | call => rw [encodeWord, decodeWord_op2 (fieldOp_nnn _ _), fieldNnn_nnn]
  | seImm => rw [encodeWord, decodeWord_op3 (fieldOp_xkk _ _ _), fieldX_xkk, fieldKk_xkk]
  | sneImm => rw [encodeWord, decodeWord_op4 (fieldOp_xkk _ _ _), fieldX_xkk, fieldKk_xkk]
  | seReg =>
    rw [encodeWord, decodeWord_op5 (fieldOp_xyn _ _ _ _), decodeGroup5, if_pos (fieldN_xyn _ _ _ _), fieldX_xyn,
      fieldY_xyn]
  | ldImm => rw [encodeWord, decodeWord_op6 (fieldOp_xkk _ _ _), fieldX_xkk, fieldKk_xkk]
  | addImm => rw [encodeWord, decodeWord_op7 (fieldOp_xkk _ _ _), fieldX_xkk, fieldKk_xkk]
  | ldReg | orReg | andReg | xorReg | addReg | subReg | shr | subn | shl =>
    rw [encodeWord, decodeWord_op8 (fieldOp_xyn _ _ _ _), decodeGroup8, fieldN_xyn, fieldX_xyn, fieldY_xyn]
    rfl
  | sneReg =>
    rw [encodeWord, decodeWord_op9 (fieldOp_xyn _ _ _ _), decodeGroup9, if_pos (fieldN_xyn _ _ _ _), fieldX_xyn,
      fieldY_xyn]
  | ldI => rw [encodeWord, decodeWord_opA (fieldOp_nnn _ _), fieldNnn_nnn]
  | jpV0 => rw [encodeWord, decodeWord_opB (fieldOp_nnn _ _), fieldNnn_nnn]
  | rnd => rw [encodeWord, decodeWord_opC (fieldOp_xkk _ _ _), fieldX_xkk, fieldKk_xkk]
  | drw => rw [encodeWord, decodeWord_opD (fieldOp_xyn _ _ _ _), fieldX_xyn, fieldY_xyn, fieldN_xyn]
  | skp | sknp =>
    rw [encodeWord, decodeWord_opE (fieldOp_xkk _ _ _), decodeGroupE, fieldKk_xkk, fieldX_xkk]
    rfl
  | ldFromDt | ldKey | ldDt | ldSt | addI | ldGlyph | bcd | store | load =>
    rw [encodeWord, decodeWord_opF (fieldOp_xkk _ _ _), decodeGroupF, fieldKk_xkk, fieldX_xkk]
    rfl

/-- Settles O7: the bytes of an instruction are those of its word, which decodes to it (`decodeWord_encodeWord`). -/
theorem decodeOfEncodeIsIdentity : Obligations.DecodeOfEncodeIsIdentity := by
  intro i rest h
  rw [encode, List.cons_append, List.cons_append, List.nil_append, decode_bytes, decodeWord_encodeWord h, Option.map_some]

theorem append_fieldNnn {w : Word} {op : Nibble} (hop : fieldOp w = op) : op ++ fieldNnn w = w :=
  hop ▸ (word_eq_nnn w).symm

theorem append_fieldX_fieldKk {w : Word} {op : Nibble} (hop : fieldOp w = op) : op ++ fieldX w ++ fieldKk w = w :=
  hop ▸ (word_eq_xkk w).symm

theorem append_fieldX_kk {w : Word} {op : Nibble} {kk : Byte} (hop : fieldOp w = op) (hkk : fieldKk w = kk) :
    op ++ fieldX w ++ kk = w :=
  hkk ▸ append_fieldX_fieldKk hop

theorem append_fieldX_fieldY_fieldN {w : Word} {op : Nibble} (hop : fieldOp w = op) :
    op ++ fieldX w ++ fieldY w ++ fieldN w = w :=
  hop ▸ (word_eq_xyn w).symm

theorem append_fieldX_fieldY_n {w : Word} {op n : Nibble} (hop : fieldOp w = op) (hn : fieldN w = n) :
    op ++ fieldX w ++ fieldY w ++ n = w :=
  hn ▸ append_fieldX_fieldY_fieldN hop

/-- A chain of branches answers an instruction in this branch, or further on. -/
theorem ite_some_eq_some_iff {c : Prop} [Decidable c] {i j : Instr} {rest : Option Instr} :
    (if c then some j else rest) = some i ↔ c ∧ j = i ∨ ¬c ∧ rest = some i := by
  split <;> simp_all

theorem encodeWord_decodeGroup8 {w : Word} {i : Instr} (hop : fieldOp w = 0x8#4) (h : decodeGroup8 w = some i) :
    i.wellFormed = true ∧ encodeWord i = w := by
  simp only [decodeGroup8, ite_some_eq_some_iff, reduceCtorEq, and_false, or_false] at h
  rcases h with ⟨hn, rfl⟩ | ⟨-, ⟨hn, rfl⟩ | ⟨-, ⟨hn, rfl⟩ | ⟨-, ⟨hn, rfl⟩ | ⟨-, ⟨hn, rfl⟩ | ⟨-, ⟨hn, rfl⟩ |
    ⟨-, ⟨hn, rfl⟩ | ⟨-, ⟨hn, rfl⟩ | ⟨-, hn, rfl⟩⟩⟩⟩⟩⟩⟩⟩
  all_goals exact ⟨rfl, append_fieldX_fieldY_n hop hn⟩

theorem encodeWord_decodeGroupE {w : Word} {i : Instr} (hop : fieldOp w = 0xE#4) (h : decodeGroupE w = some i) :
    i.wellFormed = true ∧ encodeWord i = w := by
  simp only [decodeGroupE, ite_some_eq_some_iff, reduceCtorEq, and_false, or_false] at h
  rcases h with ⟨hkk, rfl⟩ | ⟨-, hkk, rfl⟩
  all_goals exact ⟨rfl, append_fieldX_kk hop hkk⟩

theorem encodeWord_decodeGroupF {w : Word} {i : Instr} (hop : fieldOp w = 0xF#4) (h : decodeGroupF w = some i) :
    i.wellFormed = true ∧ encodeWord i = w := by
  simp only [decodeGroupF, ite_some_eq_some_iff, reduceCtorEq, and_false, or_false] at h
  rcases h with ⟨hkk, rfl⟩ | ⟨-, ⟨hkk, rfl⟩ | ⟨-, ⟨hkk, rfl⟩ | ⟨-, ⟨hkk, rfl⟩ | ⟨-, ⟨hkk, rfl⟩ | ⟨-, ⟨hkk, rfl⟩ |
    ⟨-, ⟨hkk, rfl⟩ | ⟨-, ⟨hkk, rfl⟩ | ⟨-, hkk, rfl⟩⟩⟩⟩⟩⟩⟩⟩
  all_goals exact ⟨rfl, append_fieldX_kk hop hkk⟩

/-- What a word decodes to is well formed and encodes to that word: the decoder reads every field that the row does not
fix, so in each branch the word is its own fields again (`append_fieldNnn` and its companions). -/
theorem encodeWord_decodeWord {w : Word} {i : Instr} (h : decodeWord w = some i) :
    i.wellFormed = true ∧ encodeWord i = w := by
  rcases nibble_cases (fieldOp w) with hop | hop | hop | hop | hop | hop | hop | hop | hop | hop | hop | hop | hop |
    hop | hop | hop
  · rw [decodeWord_op0 hop, decodeGroup0] at h
    split_ifs at h with hcls hret <;> cases h
    · exact ⟨rfl, (congrArg (0x0#4 ++ ·) hcls.symm).trans (append_fieldNnn hop)⟩
    · exact ⟨rfl, (congrArg (0x0#4 ++ ·) hret.symm).trans (append_fieldNnn hop)⟩
    · exact ⟨by simp [Instr.wellFormed, hcls, hret], append_fieldNnn hop⟩
  · cases (decodeWord_op1 hop).symm.trans h
    exact ⟨rfl, append_fieldNnn hop⟩
  · cases (decodeWord_op2 hop).symm.trans h
    exact ⟨rfl, append_fieldNnn hop⟩
  · cases (decodeWord_op3 hop).symm.trans h
    exact ⟨rfl, append_fieldX_fieldKk hop⟩
  · cases (decodeWord_op4 hop).symm.trans h
    exact ⟨rfl, append_fieldX_fieldKk hop⟩
  · rw [decodeWord_op5 hop, decodeGroup5] at h
    split_ifs at h with hn
    cases h
    exact ⟨rfl, append_fieldX_fieldY_n hop hn⟩
  · cases (decodeWord_op6 hop).symm.trans h
    exact ⟨rfl, append_fieldX_fieldKk hop⟩
  · cases (decodeWord_op7 hop).symm.trans h
    exact ⟨rfl, append_fieldX_fieldKk hop⟩
  · exact encodeWord_decodeGroup8 hop ((decodeWord_op8 hop).symm.trans h)
  · rw [decodeWord_op9 hop, decodeGroup9] at h
    split_ifs at h with hn
    cases h
    exact ⟨rfl, append_fieldX_fieldY_n hop hn⟩
  · cases (decodeWord_opA hop).symm.trans h
    exact ⟨rfl, append_fieldNnn hop⟩
  · cases (decodeWord_opB hop).symm.trans h
    exact ⟨rfl, append_fieldNnn hop⟩
  · cases (decodeWord_opC hop).symm.trans h
    exact ⟨rfl, append_fieldX_fieldKk hop⟩
  · cases (decodeWord_opD hop).symm.trans h
    exact ⟨rfl, append_fieldX_fieldY_fieldN hop⟩
  · exact encodeWord_decodeGroupE hop ((decodeWord_opE hop).symm.trans h)
  · exact encodeWord_decodeGroupF hop ((decodeWord_opF hop).symm.trans h)

/-- Settles O8: only two bytes or more decode, and their word is the encoding of what it decodes to
(`encodeWord_decodeWord`). -/
theorem encodeOfDecodedIsIdentity : Obligations.EncodeOfDecodedIsIdentity := by
  intro bytes rest i h
  match bytes, h with
  | hi :: lo :: tail, h =>
    obtain ⟨j, hj, hpair⟩ := Option.map_eq_some_iff.mp h
    cases hpair
    obtain ⟨hwf, hword⟩ := encodeWord_decodeWord hj
    refine ⟨hwf, ?_⟩
    rw [encode, hword, composeWord, highByte_append, lowByte_append]
    rfl

/-- The word of an instruction matches its row of the opcode map (30_encoding.md R95): the per-instruction law of that
name, over all instructions. -/
theorem encodeWord_matchesRow (i : Instr) : encodeWord i &&& (opcodeRow i).mask = (opcodeRow i).pattern := by
  open Laws.EncodingMatchesRow in
  cases i with
  | cls => exact cls
  | ret => exact ret
  | sys nnn => exact sys nnn
  | jp nnn => exact jp nnn
  | call nnn => exact call nnn
  | seImm x kk => exact seImm x kk
  | sneImm x kk => exact sneImm x kk
  | seReg x y => exact seReg x y
  | ldImm x kk => exact ldImm x kk
  | addImm x kk => exact addImm x kk
  | ldReg x y => exact ldReg x y
  | orReg x y => exact orReg x y
  | andReg x y => exact andReg x y
  | xorReg x y => exact xorReg x y
  | addReg x y => exact addReg x y
  | subReg x y => exact subReg x y
  | shr x y => exact shr x y
  | subn x y => exact subn x y
  | shl x y => exact shl x y
  | sneReg x y => exact sneReg x y
  | ldI nnn => exact ldI nnn
  | jpV0 nnn => exact jpV0 nnn
  | rnd x kk => exact rnd x kk
  | drw x y n => exact drw x y n
  | skp x => exact skp x
  | sknp x => exact sknp x
  | ldFromDt x => exact ldFromDt x
  | ldKey x => exact ldKey x
  | ldDt x => exact ldDt x
  | ldSt x => exact ldSt x
  | addI x => exact addI x
  | ldGlyph x => exact ldGlyph x
  | bcd x => exact bcd x
  | store x => exact store x
  | load x => exact load x

/-- Words that agree under the mask 0xF000 have the same digit `op`. -/
theorem fieldOp_eq_of_maskOp {w w' : Word} (h : w &&& 0xF000#16 = w' &&& 0xF000#16) : fieldOp w = fieldOp w' := by
  have hnat := congrArg BitVec.toNat h
  rw [maskOp_toNat, maskOp_toNat] at hnat
  rw [← BitVec.toNat_inj, fieldOp_toNat, fieldOp_toNat]
  omega

/-- Words that agree under the mask 0xF00F have the same `op` and `n`. -/
theorem fields_eq_of_maskOpN {w w' : Word} (h : w &&& 0xF00F#16 = w' &&& 0xF00F#16) :
    fieldOp w = fieldOp w' ∧ fieldN w = fieldN w' := by
  have hnat := congrArg BitVec.toNat h
  rw [maskOpN_toNat, maskOpN_toNat] at hnat
  simp only [← BitVec.toNat_inj, fieldOp_toNat, fieldN_toNat]
  omega

/-- Words that agree under the mask 0xF0FF have the same `op` and `kk`. -/
theorem fields_eq_of_maskOpKk {w w' : Word} (h : w &&& 0xF0FF#16 = w' &&& 0xF0FF#16) :
    fieldOp w = fieldOp w' ∧ fieldKk w = fieldKk w' := by
  have hnat := congrArg BitVec.toNat h
  rw [maskOpKk_toNat, maskOpKk_toNat] at hnat
  simp only [← BitVec.toNat_inj, fieldOp_toNat, fieldKk_toNat]
  omega

/-- The instruction of a row with the fields of a word as its operands. -/
def withFields (w : Word) : Instr → Instr
  | .cls => .cls
  | .ret => .ret
  | .sys _ => .sys (fieldNnn w)
  | .jp _ => .jp (fieldNnn w)
  | .call _ => .call (fieldNnn w)
  | .seImm _ _ => .seImm (fieldX w) (fieldKk w)
  | .sneImm _ _ => .sneImm (fieldX w) (fieldKk w)
  | .seReg _ _ => .seReg (fieldX w) (fieldY w)
  | .ldImm _ _ => .ldImm (fieldX w) (fieldKk w)
  | .addImm _ _ => .addImm (fieldX w) (fieldKk w)
  | .ldReg _ _ => .ldReg (fieldX w) (fieldY w)
  | .orReg _ _ => .orReg (fieldX w) (fieldY w)
  | .andReg _ _ => .andReg (fieldX w) (fieldY w)
  | .xorReg _ _ => .xorReg (fieldX w) (fieldY w)
  | .addReg _ _ => .addReg (fieldX w) (fieldY w)
  | .subReg _ _ => .subReg (fieldX w) (fieldY w)
  | .shr _ _ => .shr (fieldX w) (fieldY w)
  | .subn _ _ => .subn (fieldX w) (fieldY w)
  | .shl _ _ => .shl (fieldX w) (fieldY w)
  | .sneReg _ _ => .sneReg (fieldX w) (fieldY w)
  | .ldI _ => .ldI (fieldNnn w)
  | .jpV0 _ => .jpV0 (fieldNnn w)
  | .rnd _ _ => .rnd (fieldX w) (fieldKk w)
  | .drw _ _ _ => .drw (fieldX w) (fieldY w) (fieldN w)
  | .skp _ => .skp (fieldX w)
  | .sknp _ => .sknp (fieldX w)
  | .ldFromDt _ => .ldFromDt (fieldX w)
  | .ldKey _ => .ldKey (fieldX w)
  | .ldDt _ => .ldDt (fieldX w)
  | .ldSt _ => .ldSt (fieldX w)
  | .addI _ => .addI (fieldX w)
  | .ldGlyph _ => .ldGlyph (fieldX w)
  | .bcd _ => .bcd (fieldX w)
  | .store _ => .store (fieldX w)
  | .load _ => .load (fieldX w)

theorem opcodeRow_withFields (w : Word) (j : Instr) : opcodeRow (withFields w j) = opcodeRow j := by
  cases j <;> rfl

/-- A word that matches a row is the word of that row with the word's own fields as operands: under the mask it agrees
with the word of `j`, which fixes `op` and the sub-discriminant, and the operands are the rest. -/
theorem encodeWord_withFields {w : Word} {j : Instr} (h : w &&& (opcodeRow j).mask = (opcodeRow j).pattern) :
    encodeWord (withFields w j) = w := by
  have hmask := h.trans (encodeWord_matchesRow j).symm
  cases j with
  | cls | ret => exact h.symm.trans (BitVec.and_allOnes (x := w))
  | sys | jp | call | ldI | jpV0 => exact append_fieldNnn ((fieldOp_eq_of_maskOp hmask).trans (fieldOp_nnn _ _))
  | seImm | sneImm | ldImm | addImm | rnd =>
    exact append_fieldX_fieldKk ((fieldOp_eq_of_maskOp hmask).trans (fieldOp_xkk _ _ _))
  | drw => exact append_fieldX_fieldY_fieldN ((fieldOp_eq_of_maskOp hmask).trans (fieldOp_xyn _ _ _ _))
  | seReg | ldReg | orReg | andReg | xorReg | addReg | subReg | shr | subn | shl | sneReg =>
    obtain ⟨hop, hn⟩ := fields_eq_of_maskOpN hmask
    exact append_fieldX_fieldY_n (hop.trans (fieldOp_xyn _ _ _ _)) (hn.trans (fieldN_xyn _ _ _ _))
  | skp | sknp | ldFromDt | ldKey | ldDt | ldSt | addI | ldGlyph | bcd | store | load =>
    obtain ⟨hop, hkk⟩ := fields_eq_of_maskOpKk hmask
    exact append_fieldX_kk (hop.trans (fieldOp_xkk _ _ _)) (hkk.trans (fieldKk_xkk _ _ _))

/-- The ill-formed terms: row `0nnn` with the word of `00E0` or of `00EE`. -/
theorem eq_sys_of_not_wellFormed {i : Instr} (h : i.wellFormed ≠ true) : i = .sys 0x0E0#12 ∨ i = .sys 0x0EE#12 := by
  cases i with
  | sys nnn =>
    simp only [Instr.sys.injEq]
    by_contra hne
    obtain ⟨hcls, hret⟩ := not_or.mp hne
    exact h (by simp [Instr.wellFormed, hcls, hret])
  | _ => exact absurd rfl h

/-- Settles O9: a word that decodes is the word of what it decodes to, which matches its row; a word that matches the row
of `j` is the word of `withFields w j`, which decodes to that term, or is ill formed and so `00E0` or `00EE`. -/
theorem decodeFollowsOpcodeMap : Obligations.DecodeFollowsOpcodeMap := by
  refine ⟨fun w i h => ?_, fun w j h => ?_⟩
  · obtain ⟨_, hword⟩ := encodeWord_decodeWord h
    exact hword ▸ encodeWord_matchesRow i
  have hword := encodeWord_withFields h
  have hrow := opcodeRow_withFields w j
  by_cases hwf : (withFields w j).wellFormed = true
  · have hdec := decodeWord_encodeWord hwf
    rw [hword] at hdec
    exact ⟨_, hdec, .inl hrow⟩
  · rcases eq_sys_of_not_wellFormed hwf with hsys | hsys <;> rw [hsys] at hword hrow
    · exact ⟨.cls, hword ▸ rfl, .inr ⟨hrow ▸ rfl, .inl hword.symm⟩⟩
    · exact ⟨.ret, hword ▸ rfl, .inr ⟨hrow ▸ rfl, .inr hword.symm⟩⟩

/-- Settles O10, on the eight words as written. -/
theorem sampleWordsDecode : Obligations.SampleWordsDecode := by
  unfold Obligations.SampleWordsDecode
  decide

end Sys2Proof.Proofs

/-! PROOFS. Control flow over the call stack and the registers (41_flow.md R151 to R161). The stack operations are
`push` and `pop`, whose two outcomes each are laws (`push_belowCapacity` and its companions); the nest of calls and the
return after a call are then about the statements of `2nnn` and `00EE`. -/

namespace Sys2Proof.Proofs

open Sys2Proof Sys2Proof.Machine

theorem exec_seReg (s : State) (x y : Nibble) :
    exec (.seReg x y) s = .next (s.skipIf (s.readV x == s.readV y)) := rfl

theorem exec_sneReg (s : State) (x y : Nibble) :
    exec (.sneReg x y) s = .next (s.skipIf (s.readV x != s.readV y)) := rfl

theorem exec_jpV0 (s : State) (nnn : Addr12) :
    exec (.jpV0 nnn) s = .next (s.setPc (zextAddr nnn + zextByte (s.readV 0))) := rfl

theorem exec_call_belowCapacity {s : State} (nnn : Addr12) (h : s.sp.val < 16) :
    exec (.call nnn) s =
      .next ((s.setStack (s.stack.set s.sp.val (s.pc + 2) h) ⟨s.sp.val + 1, by omega⟩).setPc (zextAddr nnn)) := by
  simp only [exec, execCall, push_belowCapacity _ h, except_bind_ok, except_pure, settle_ok]

theorem exec_call_full {s : State} (nnn : Addr12) (h : s.sp.val = 16) :
    exec (.call nnn) s = .fault .stackOverflow := by
  simp only [exec, execCall, push_full _ h, except_bind_error, settle_error]

theorem exec_ret_live {s : State} (h : 0 < s.sp.val) :
    exec .ret s =
      .next ((s.setStack s.stack ⟨s.sp.val - 1, by omega⟩).setPc (s.stack[s.sp.val - 1]'(by omega))) := by
  simp only [exec, execRet, pop_live h, except_bind_ok, except_pure, settle_ok]

theorem exec_ret_empty {s : State} (h : s.sp.val = 0) : exec .ret s = .fault .stackUnderflow := by
  simp only [exec, execRet, pop_empty h, except_bind_error, settle_error]

/-- The sum of `Bnnn` is exact: 12 bits and 8 bits together stay below 2^16 (R161). -/
theorem jpV0Target_toNat (nnn : Addr12) (b : Byte) : (zextAddr nnn + zextByte b).toNat = nnn.toNat + b.toNat := by
  have hn := nnn.isLt
  have hb := b.isLt
  rw [BitVec.toNat_add, zextAddr_toNat, zextByte_toNat, Nat.mod_eq_of_lt (by omega)]

/-- Settles O24: the next state is the state with `pc` at the sum, which is exact (`jpV0Target_toNat`). -/
theorem jumpV0AddsExactly : Obligations.JumpV0AddsExactly := fun s nnn =>
  ⟨_, exec_jpV0 s nnn, jpV0Target_toNat nnn (s.readV 0), onlyRegs_setPc [] s _⟩

/-- Settles O30: each is a skip on its test, and a skip writes nothing but `pc`. -/
theorem skipOnRegisters : Obligations.SkipOnRegisters := by
  intro s x y
  refine ⟨⟨_, exec_seReg s x y, ?_, onlyRegs_skipIf [] s _⟩, ⟨_, exec_sneReg s x y, ?_, onlyRegs_skipIf [] s _⟩⟩
  · simp only [State.skipIf_pc, beq_iff_eq]
  · simp only [State.skipIf_pc, bne_iff_ne]

/-- Settles O25: below capacity the push writes the entry at SP alone; a full stack raises. -/
theorem callPushesReturnAddress : Obligations.CallPushesReturnAddress := by
  intro s nnn
  refine ⟨fun hsp => ⟨_, exec_call_belowCapacity nnn hsp, zextAddr_toNat nnn, rfl, fun k => ?_, fun _ _ => rfl,
    fun _ => rfl, ⟨rfl, rfl, rfl⟩, fun _ _ => rfl, ⟨fun _ => rfl, rfl, rfl, rfl⟩, rfl⟩, exec_call_full nnn⟩
  calc (s.stack.set s.sp.val (s.pc + 2) hsp)[k]
      = if s.sp.val = k.val then s.pc + 2 else s.stack[k] := Vector.getElem_set hsp k.isLt
    _ = if k.val = s.sp.val then s.pc + 2 else s.stack[k] := if_congr eq_comm rfl rfl

/-- Settles O26: with a live entry the pop takes the top one and keeps all entries; an empty stack raises. -/
theorem returnPopsTopEntry : Obligations.ReturnPopsTopEntry := by
  intro s
  refine ⟨fun k hk => ?_, exec_ret_empty⟩
  have htop : s.sp.val - 1 = k.val := by omega
  refine ⟨_, exec_ret_live (by omega), ?_, htop, fun _ _ => rfl, fun _ _ => rfl, fun _ => rfl, ⟨rfl, rfl, rfl⟩,
    fun _ _ => rfl, ⟨fun _ => rfl, rfl, rfl, rfl⟩, rfl⟩
  simp only [State.setPc_pc, htop, Fin.getElem_fin]

/-- A call that answers a next state found room on the stack. -/
theorem sp_lt_of_exec_call {s t : State} {nnn : Addr12} (h : exec (.call nnn) s = .next t) : s.sp.val < 16 := by
  by_contra hsp
  rw [exec_call_full nnn (by omega)] at h
  cases h

/-- Settles O27: the call left `pc + 2` on top of the caller's entries, so the return that finds that stack pops it
(`callPushesReturnAddress`, `returnPopsTopEntry`). -/
theorem returnContinuesAfterTheCall : Obligations.ReturnContinuesAfterTheCall := by
  intro s t u nnn hcall ⟨husp, hustack⟩
  have hsp := sp_lt_of_exec_call hcall
  obtain ⟨t', ht', _, htsp, htstack, _⟩ := (callPushesReturnAddress s nnn).1 hsp
  cases hcall.symm.trans ht'
  obtain ⟨w, hret, hwpc, hwsp, hwstack, _⟩ :=
    (returnPopsTopEntry u).1 ⟨s.sp.val, hsp⟩ (by rw [husp, htsp])
  refine ⟨w, hret, ?_, Fin.ext hwsp, fun k hk => ?_⟩
  · rw [hwpc, hustack, htstack, if_pos rfl]
  · rw [hwstack k hk, hustack, htstack, if_neg (Nat.ne_of_lt hk)]

/-- Nested calls from any depth: those that fit succeed and deepen the stack by one each. -/
theorem execAll_calls_fit : ∀ (targets : List Addr12) (s : State), s.sp.val + targets.length ≤ 16 →
    ∃ t, execAll (targets.map .call) s = .next t ∧ t.sp.val = s.sp.val + targets.length
  | [], s, _ => ⟨s, rfl, rfl⟩
  | nnn :: targets, s, h => by
    rw [List.length_cons] at h
    obtain ⟨u, hcall, _, husp, _⟩ := (callPushesReturnAddress s nnn).1 (by omega)
    obtain ⟨t, hall, htsp⟩ := execAll_calls_fit targets u (by omega)
    refine ⟨t, ?_, by rw [List.length_cons]; omega⟩
    simp only [List.map_cons, execAll, hcall, hall]

/-- Nested calls from any depth: one too many raises. -/
theorem execAll_calls_overflow : ∀ (targets : List Addr12) (s : State), 16 < s.sp.val + targets.length →
    execAll (targets.map .call) s = .fault .stackOverflow
  | [], s, h => by
    have hsp := s.sp.isLt
    rw [List.length_nil] at h
    omega
  | nnn :: targets, s, h => by
    rw [List.length_cons] at h
    by_cases hsp : s.sp.val < 16
    · obtain ⟨u, hcall, _, husp, _⟩ := (callPushesReturnAddress s nnn).1 hsp
      simp only [List.map_cons, execAll, hcall, execAll_calls_overflow targets u (by omega)]
    · simp only [List.map_cons, execAll, exec_call_full nnn (show s.sp.val = 16 by omega)]

/-- Settles O28: the two lemmas at depth 0. -/
theorem sixteenNestedCallsSucceed : Obligations.SixteenNestedCallsSucceed := by
  intro s targets hsp
  refine ⟨fun hfit => ?_, fun hover => execAll_calls_overflow targets s (by omega)⟩
  obtain ⟨t, hall, htsp⟩ := execAll_calls_fit targets s (by omega)
  exact ⟨t, hall, by omega⟩

end Sys2Proof.Proofs

/-! PROOFS. Arithmetic with a flag, shifts and the random draw (42_alu.md R178 to R183). The flag writers all answer
`((s.setV vf flag).setV x result).advance`, flag first (R171), so what that state holds and its frame are said once. -/

namespace Sys2Proof.Proofs

open Sys2Proof Sys2Proof.Machine

/-- The next state of the flag writers: the flag in VF, then the result in `V[x]`, then the move of `pc` (R171). -/
def afterFlagAndResult (s : State) (x : Nibble) (flag result : Byte) : State := ((s.setV vf flag).setV x result).advance

theorem readV_afterFlagAndResult (s : State) (x : Nibble) (flag result : Byte) :
    (afterFlagAndResult s x flag result).readV x = result := readV_setV_advance _ x result

theorem readV_vf_afterFlagAndResult (s : State) {x : Nibble} (hx : x ≠ vf) (flag result : Byte) :
    (afterFlagAndResult s x flag result).readV vf = flag := by
  rw [afterFlagAndResult, State.readV_advance, State.readV_setV, if_neg hx.symm, State.readV_setV, if_pos rfl]

theorem onlyRegs_afterFlagAndResult (s : State) (x : Nibble) (flag result : Byte) :
    onlyRegs [x, vf] s (afterFlagAndResult s x flag result) := by
  refine ⟨fun r hr => ?_, fun _ => rfl, ⟨rfl, rfl⟩, ⟨rfl, rfl, rfl⟩, fun _ _ => rfl, ⟨fun _ => rfl, rfl, rfl, rfl⟩, rfl⟩
  obtain ⟨hx, hvf⟩ : r ≠ x ∧ r ≠ vf := by simpa using hr
  rw [afterFlagAndResult, State.readV_advance, State.readV_setV, if_neg hx, State.readV_setV, if_neg hvf]

theorem exec_addReg (s : State) (x y : Nibble) :
    exec (.addReg x y) s =
      .next (afterFlagAndResult s x (carryFlag (s.readV x) (s.readV y)) (s.readV x + s.readV y)) := rfl

theorem exec_subReg (s : State) (x y : Nibble) :
    exec (.subReg x y) s =
      .next (afterFlagAndResult s x (greaterFlag (s.readV x) (s.readV y)) (s.readV x - s.readV y)) := rfl

theorem exec_subn (s : State) (x y : Nibble) :
    exec (.subn x y) s =
      .next (afterFlagAndResult s x (greaterFlag (s.readV y) (s.readV x)) (s.readV y - s.readV x)) := rfl

theorem exec_shr (s : State) (x y : Nibble) :
    exec (.shr x y) s =
      .next (afterFlagAndResult s x (lowBitFlag (shiftSource s x y)) (shiftSource s x y >>> 1)) := rfl

theorem exec_shl (s : State) (x y : Nibble) :
    exec (.shl x y) s =
      .next (afterFlagAndResult s x (highBitFlag (shiftSource s x y)) (shiftSource s x y <<< 1)) := rfl

theorem exec_rnd (s : State) (x : Nibble) (kk : Byte) :
    exec (.rnd x kk) s = .next (s.countDraw.setV x (Config.randomByte s.draws &&& kk)).advance := rfl

theorem carryFlag_eq (a b : Byte) : carryFlag a b = if a.toNat + b.toNat > 255 then 1 else 0 := by
  simp only [carryFlag, boolByte, decide_eq_true_eq]

theorem greaterFlag_eq (a b : Byte) : greaterFlag a b = if a.toNat > b.toNat then 1 else 0 := by
  simp only [greaterFlag, boolByte, decide_eq_true_eq, gt_iff_lt, BitVec.lt_def]

/-- Subtraction of bytes as a number, borrowing 256. -/
theorem sub_toNat (a b : Byte) : (a - b).toNat = (256 + a.toNat - b.toNat) % 256 := by
  have hb := b.isLt
  rw [BitVec.toNat_sub]
  congr 1
  omega

theorem shiftRight_one_toNat (b : Byte) : (b >>> 1).toNat = b.toNat / 2 := by
  rw [BitVec.toNat_ushiftRight, Nat.shiftRight_eq_div_pow, Nat.pow_one]

theorem shiftLeft_one_toNat (b : Byte) : (b <<< 1).toNat = b.toNat * 2 % 256 := by
  rw [BitVec.toNat_shiftLeft, Nat.shiftLeft_eq, Nat.pow_one]

theorem lowBitFlag_toNat (b : Byte) : (lowBitFlag b).toNat = b.toNat % 2 := by
  rw [lowBitFlag, BitVec.toNat_and]
  exact Nat.and_one_is_mod _

theorem highBitFlag_toNat (b : Byte) : (highBitFlag b).toNat = b.toNat / 128 := by
  have hb := b.isLt
  have hlow : (highBitFlag b).toNat = (b >>> 7).toNat % 2 := lowBitFlag_toNat (b >>> 7)
  rw [hlow, BitVec.toNat_ushiftRight, Nat.shiftRight_eq_div_pow]
  omega

/-- Settles O33: the sum of bytes is the sum modulo 256, and the flag is the carry. -/
theorem addReportsCarry : Obligations.AddReportsCarry := by
  intro s x y
  refine ⟨_, exec_addReg s x y, ?_, fun hx => ?_, rfl, onlyRegs_afterFlagAndResult s x _ _⟩
  · rw [readV_afterFlagAndResult, BitVec.toNat_add]
  · rw [readV_vf_afterFlagAndResult s hx, carryFlag_eq]

/-- Settles O34: the difference of bytes borrows 256 (`sub_toNat`), and the flag is the strict comparison
(`greaterFlag_eq`). -/
theorem subtractReportsStrictlyGreater : Obligations.SubtractReportsStrictlyGreater := by
  intro s x y
  refine ⟨⟨_, exec_subReg s x y, ?_, fun hx => ?_, rfl, onlyRegs_afterFlagAndResult s x _ _⟩,
    ⟨_, exec_subn s x y, ?_, fun hx => ?_, rfl, onlyRegs_afterFlagAndResult s x _ _⟩⟩
  · rw [readV_afterFlagAndResult, sub_toNat]
  · rw [readV_vf_afterFlagAndResult s hx, greaterFlag_eq]
  · rw [readV_afterFlagAndResult, sub_toNat]
  · rw [readV_vf_afterFlagAndResult s hx, greaterFlag_eq]

/-- Settles O35: the source is `shiftSource`; shifts and the bits they drop are quotients and remainders by powers of
two. -/
theorem shiftsReportTheBitOut : Obligations.ShiftsReportTheBitOut := by
  intro s x y source hsource
  have hsrc : (shiftSource s x y).toNat = source := hsource.symm
  refine ⟨⟨_, exec_shr s x y, ?_, fun hx => ?_, rfl, onlyRegs_afterFlagAndResult s x _ _⟩,
    ⟨_, exec_shl s x y, ?_, fun hx => ?_, rfl, onlyRegs_afterFlagAndResult s x _ _⟩⟩
  · rw [readV_afterFlagAndResult, shiftRight_one_toNat, hsrc]
  · rw [readV_vf_afterFlagAndResult s hx, lowBitFlag_toNat, hsrc]
  · rw [readV_afterFlagAndResult, shiftLeft_one_toNat, hsrc]
  · rw [readV_vf_afterFlagAndResult s hx, highBitFlag_toNat, hsrc]

/-- Settles O36: the byte written is the drawn byte AND `kk`, whose set bits are bits of `kk`; the frame is that of one
register write after the draw is counted. -/
theorem randomIsAFreeDrawUnderTheMask : Obligations.RandomIsAFreeDrawUnderTheMask := by
  intro s x kk
  have hread := readV_setV_advance s.countDraw x (Config.randomByte s.draws &&& kk)
  obtain ⟨hregs, hmem, hstack, htimers, hdisplay, hcontrol, hdraws⟩ :=
    onlyRegs_setV_advance s.countDraw x (Config.randomByte s.draws &&& kk)
  refine ⟨_, exec_rnd s x kk, hread, fun b hb => ?_, hdraws, rfl, hregs, hmem, hstack, htimers, hdisplay, hcontrol⟩
  rw [hread, BitVec.getLsbD_and, Bool.and_eq_true] at hb
  exact hb.2

end Sys2Proof.Proofs

/-! PROOFS. `Fx1E` and the round trip of `Fx55` and `Fx65` (43_index_memory.md R201, R206, R207). The round trip is about
the statements of the two block instructions, not about how they run. -/

namespace Sys2Proof.Proofs

open Sys2Proof Sys2Proof.Machine

theorem exec_addI_fits {s : State} {x : Nibble} (h : s.i.toNat + (s.readV x).toNat ≤ 65535) :
    exec (.addI x) s = .next (s.setI (BitVec.ofNat 16 (s.i.toNat + (s.readV x).toNat))).advance := by
  simp only [exec, execAddI, addToI_fits h, except_bind_ok, except_pure, settle_ok]

theorem exec_addI_overflows {s : State} {x : Nibble} (h : 65535 < s.i.toNat + (s.readV x).toNat) :
    exec (.addI x) s = .fault .undefinedIOverflow := by
  simp only [exec, execAddI, addToI_overflows h, except_bind_error, settle_error]

/-- Settles O38: a sum that fits 16 bits is held exactly, and `I` alone is written; a larger one raises. -/
theorem addToAddressRegister : Obligations.AddToAddressRegister := by
  intro s x
  refine ⟨fun hfit => ⟨_, exec_addI_fits hfit, ?_, rfl, fun _ _ => rfl, fun _ => rfl,
    ((sameOutsideBlock_refl s).setI _).advance⟩, exec_addI_overflows⟩
  rw [State.advance_i, State.setI_i, BitVec.toNat_ofNat, Nat.mod_eq_of_lt (by omega)]

/-- A block store that answers a next state fitted below 4096. -/
theorem inRange_of_exec_store {s t : State} {x : Nibble} (h : exec (.store x) s = .next t) :
    effAddr s x.toNat ≤ 4095 := by
  by_contra hout
  rw [exec_store_outOfRange (Nat.lt_of_not_le hout)] at h
  cases h

/-- Settles O42: the store left `V[k]` at `I + k`, and the load from the same `I` reads that byte into `V[k]`
(`storeWritesTheRegisterBlock`, `loadReadsTheRegisterBlock`). -/
theorem loadRestoresWhatStoreStored : Obligations.LoadRestoresWhatStoreStored := by
  intro s t u x hm hstore hmem hi
  have heff (k : Nat) : effAddr u k = effAddr s k := by rw [effAddr_eq, effAddr_eq, hi]
  have hin := inRange_of_exec_store hstore
  obtain ⟨t', ht', hstored, _⟩ := (storeWritesTheRegisterBlock s x hm).1 hin
  cases hstore.symm.trans ht'
  obtain ⟨w, hload, hloaded, _, hwi, _⟩ := (loadReadsTheRegisterBlock u x).1 (heff x.toNat ▸ hin)
  refine ⟨w, hload, fun k hk => ?_, hi ▸ hwi⟩
  calc w.readV k
      = u.byteAt (effAddr s k.toNat) := by rw [hloaded, if_pos hk, heff]
    _ = t.byteAt (effAddr s k.toNat) := hmem _
    _ = s.readV k := hstored k hk

end Sys2Proof.Proofs

/-! PROOFS. Drawing (44_display.md R220 to R224). What a sprite does to every pixel is the law
`drawSprite_togglesExactly`; here its rows are those at `I`, so its pixels are those of `spriteCovers`. -/

namespace Sys2Proof.Proofs

open Sys2Proof Sys2Proof.Machine

/-- The `n` rows of the sprite at `I` (R223). -/
def rowsAt (s : State) (n : Nibble) : List Byte := (List.range n.toNat).map fun r => s.byteAt (effAddr s r)

/-- The next state of `Dxyn` (R223). -/
def afterDraw (s : State) (x y n : Nibble) : State :=
  let drawn := drawSprite (s.readV x) (s.readV y) (rowsAt s n) s.fb
  ((s.setFb drawn.1).setV vf (boolByte drawn.2)).advance

theorem rowsAt_length (s : State) (n : Nibble) : (rowsAt s n).length = n.toNat := by
  rw [rowsAt, List.length_map, List.length_range]

/-- Reading the rows succeeds if every row address is below 4096. -/
theorem readBytes_rows {s : State} {n : Nibble} (h : ∀ r, r < n.toNat → effAddr s r ≤ 4095) :
    readBytes s.mem (effAddr s 0) n.toNat = .ok (rowsAt s n) := by
  by_cases hn : n.toNat = 0
  · rw [rowsAt, hn]
    rfl
  · have hlast : effAddr s (n.toNat - 1) ≤ 4095 := h _ (by omega)
    rw [effAddr_eq] at hlast
    exact readBytes_inRange (by rw [effAddr_eq]; omega)

theorem exec_drw_inRange {s : State} {n : Nibble} (x y : Nibble) (h : ∀ r, r < n.toNat → effAddr s r ≤ 4095) :
    exec (.drw x y n) s = .next (afterDraw s x y n) := by
  simp only [exec, execDrw, readBytes_rows h, except_bind_ok, except_pure, settle_ok, afterDraw]

theorem exec_drw_outOfRange {s : State} {n : Nibble} (x y : Nibble) (hn : 0 < n.toNat)
    (h : 4096 < s.i.toNat + n.toNat) : exec (.drw x y n) s = .fault (.memoryOutOfRange (max s.i.toNat 4096)) := by
  have hread := readBytes_outOfRange (m := s.mem) hn h
  simp only [exec, execDrw, Nat.add_zero, hread, except_bind_error, settle_error]

/-- Either every row address of a sprite is below 4096, or it has rows and they do not fit. -/
theorem rows_fit_or_not (s : State) (n : Nibble) :
    (∀ r, r < n.toNat → effAddr s r ≤ 4095) ∨ 0 < n.toNat ∧ 4096 < s.i.toNat + n.toNat := by
  by_cases hout : 0 < n.toNat ∧ 4096 < s.i.toNat + n.toNat
  · exact .inr hout
  · refine .inl fun r hr => ?_
    rw [effAddr_eq]
    omega

/-- A draw that answers a next state had all its row addresses below 4096. -/
theorem rowsInRange_of_exec_drw {s t : State} {x y n : Nibble} (h : exec (.drw x y n) s = .next t) :
    ∀ r, r < n.toNat → effAddr s r ≤ 4095 := by
  rcases rows_fit_or_not s n with hin | ⟨hn, hout⟩
  · exact hin
  · cases (exec_drw_outOfRange x y hn hout).symm.trans h

/-- The rows at `I` cover the pixels of `spriteCovers`. -/
theorem rowsAt_togglesExactly (s : State) (x y n : Nibble) :
    TogglesExactly (spriteCovers s x y n) (drawRows (s.readV x).toNat (s.readV y).toNat 0 (rowsAt s n)) := by
  have hn := n.isLt
  refine (drawSprite_togglesExactly (s.readV x) (s.readV y) (rowsAt s n) (by rw [rowsAt_length]; omega)).congr
    fun px py => ⟨?_, ?_⟩
  · rintro ⟨r, c, hr, hc, hbit, hx, hy⟩
    exact ⟨r, c, rowsAt_length s n ▸ hr, hc, by simpa [rowsAt] using hbit, hx, hy⟩
  · rintro ⟨r, c, hr, hc, hbit, hx, hy⟩
    exact ⟨r, c, (rowsAt_length s n).symm ▸ hr, hc, by simpa [rowsAt] using hbit, hx, hy⟩

/-- VF after the draw is the collision (R221). -/
theorem readV_vf_afterDraw (s : State) (x y n : Nibble) :
    (afterDraw s x y n).readV vf = boolByte (drawSprite (s.readV x) (s.readV y) (rowsAt s n) s.fb).2 :=
  readV_setV_advance _ vf _

/-- Settles O44: the draw toggles exactly the covered pixels, and its collision is that one of them was on
(`rowsAt_togglesExactly`); besides the framebuffer it writes VF and `pc`. -/
theorem drawTogglesCoveredPixels : Obligations.DrawTogglesCoveredPixels := by
  intro s x y n hin
  obtain ⟨hon, hoff, hcollided⟩ := rowsAt_togglesExactly s x y n
  obtain ⟨hregs, hmem, hstack, htimers, _, hcontrol, hdraws⟩ := onlyRegs_setV_advance
    (s.setFb (drawSprite (s.readV x) (s.readV y) (rowsAt s n) s.fb).1) vf
    (boolByte (drawSprite (s.readV x) (s.readV y) (rowsAt s n) s.fb).2)
  refine ⟨_, exec_drw_inRange x y hin, hon (s.fb, false), hoff (s.fb, false), fun hcoll => ?_, fun hnone => ?_, rfl, hregs,
    hmem, hstack, htimers, hcontrol, hdraws⟩
  · have hflag := (hcollided (s.fb, false)).mpr (.inr hcoll)
    rw [readV_vf_afterDraw, drawSprite, hflag]
    rfl
  · have hflag : (drawSprite (s.readV x) (s.readV y) (rowsAt s n) s.fb).2 = false := by
      rw [Bool.eq_false_iff]
      intro hflag
      rcases (hcollided (s.fb, false)).mp hflag with hfalse | ⟨px, py, hcov, hpx⟩
      · cases hfalse
      · exact absurd hpx (by rw [hnone px py hcov]; decide)
    rw [readV_vf_afterDraw, hflag]
    rfl

/-- Settles O45: the read of the rows raises at the first bad address (`max_eq_of_firstAbove`), before anything is
drawn. -/
theorem drawRaisesAtTheFirstBadRow : Obligations.DrawRaisesAtTheFirstBadRow := by
  intro s x y n r hr habove hfirst
  have hout : 4096 < s.i.toNat + n.toNat := by rw [effAddr_eq] at habove; omega
  rw [exec_drw_outOfRange x y (Nat.zero_lt_of_lt hr) hout, max_eq_of_firstAbove habove hfirst]

/-- The covered pixels depend on memory, `I` and the two coordinate registers alone. -/
theorem spriteCovers_congr {s t : State} {x y : Nibble} (n : Nibble) (hmem : sameMemory s t) (hi : t.i = s.i)
    (hx : t.readV x = s.readV x) (hy : t.readV y = s.readV y) : spriteCovers t x y n = spriteCovers s x y n := by
  funext px py
  simp only [spriteCovers, effAddr_eq, hmem _, hi, hx, hy]

/-- Settles O46: the second draw covers the same pixels, each toggled twice, and it finds on exactly those the first
turned on (`drawTogglesCoveredPixels` at both states). -/
theorem drawingTwiceRestoresTheScreen : Obligations.DrawingTwiceRestoresTheScreen := by
  intro s t x y n hx hy hdraw
  have hin := rowsInRange_of_exec_drw hdraw
  obtain ⟨t', ht', hon, hoff, _, _, _, hregs, hmem, _, ⟨hi, _, _⟩, _⟩ := drawTogglesCoveredPixels s x y n hin
  cases hdraw.symm.trans ht'
  have hcov : spriteCovers t x y n = spriteCovers s x y n :=
    spriteCovers_congr n hmem hi (hregs x (mt List.mem_singleton.mp hx)) (hregs y (mt List.mem_singleton.mp hy))
  have hin' : ∀ r, r < n.toNat → effAddr t r ≤ 4095 := by simpa only [effAddr_eq, hi] using hin
  obtain ⟨u, hu, hon', hoff', hcoll, hnone, _⟩ := drawTogglesCoveredPixels t x y n hin'
  rw [hcov] at hon' hoff' hcoll hnone
  refine ⟨u, hu, fun px py => ?_, fun hvf => ?_, fun ⟨px, py, hpx, hpixel⟩ => ?_⟩
  · by_cases hpx : spriteCovers s x y n px py
    · rw [hon' px py hpx, hon px py hpx, Bool.not_not]
    · rw [hoff' px py hpx, hoff px py hpx]
  · by_contra hall
    have hzero : u.readV vf = 0 := hnone fun px py hpx => by
      have hpixel : pixelOn s.fb px py = true := by
        by_contra hfalse
        exact hall ⟨px, py, hpx, Bool.eq_false_iff.mpr hfalse⟩
      rw [hon px py hpx, hpixel, Bool.not_true]
    rw [hzero] at hvf
    exact absurd hvf (by decide)
  · exact hcoll ⟨px, py, hpx, by rw [hon px py hpx, hpixel, Bool.not_false]⟩

end Sys2Proof.Proofs

/-! PROOFS. Keypad and timer instructions (45_keypad_timer.md R240 to R246). -/

namespace Sys2Proof.Proofs

open Sys2Proof Sys2Proof.Machine

theorem exec_skp_inDomain {s : State} {x k : Nibble} (h : (s.readV x).toNat = k.toNat) :
    exec (.skp x) s = .next (s.skipIf (s.key k)) := by
  simp only [exec, execSkp, keyState_inDomain h, except_bind_ok, except_pure, settle_ok]

theorem exec_sknp_inDomain {s : State} {x k : Nibble} (h : (s.readV x).toNat = k.toNat) :
    exec (.sknp x) s = .next (s.skipIf (!s.key k)) := by
  simp only [exec, execSknp, keyState_inDomain h, except_bind_ok, except_pure, settle_ok]

theorem exec_skp_outsideDomain {s : State} {x : Nibble} (h : 15 < (s.readV x).toNat) :
    exec (.skp x) s = .fault (.undefinedKeyIndex (s.readV x)) := by
  simp only [exec, execSkp, keyState_outsideDomain h, except_bind_error, settle_error]

theorem exec_sknp_outsideDomain {s : State} {x : Nibble} (h : 15 < (s.readV x).toNat) :
    exec (.sknp x) s = .fault (.undefinedKeyIndex (s.readV x)) := by
  simp only [exec, execSknp, keyState_outsideDomain h, except_bind_error, settle_error]

theorem exec_ldFromDt (s : State) (x : Nibble) : exec (.ldFromDt x) s = .next (s.setV x s.dt).advance := rfl

theorem exec_ldKey (s : State) (x : Nibble) : exec (.ldKey x) s = .next (s.setRun (.awaitingKey x)).advance := rfl

theorem exec_ldDt (s : State) (x : Nibble) : exec (.ldDt x) s = .next (s.setDt (s.readV x)).advance := rfl

theorem exec_ldSt (s : State) (x : Nibble) : exec (.ldSt x) s = .next (s.setSt (s.readV x)).advance := rfl

/-- Settles O47: inside the domain each is a skip on the key (`keyState_inDomain`), outside it both raise. -/
theorem skipOnKey : Obligations.SkipOnKey := by
  intro s x
  refine ⟨fun k hk => ⟨⟨_, exec_skp_inDomain hk, State.skipIf_pc s _, onlyRegs_skipIf [] s _⟩,
    ⟨_, exec_sknp_inDomain hk, ?_, onlyRegs_skipIf [] s _⟩⟩,
    fun hk => ⟨exec_skp_outsideDomain hk, exec_sknp_outsideDomain hk⟩⟩
  rw [State.skipIf_pc]
  cases s.key k <;> rfl

/-- Settles O48: each copies one byte between `V[x]` and a timer and moves `pc` on. -/
theorem timerMoves : Obligations.TimerMoves := by
  intro s x
  refine ⟨⟨_, exec_ldFromDt s x, readV_setV_advance s x _, rfl, onlyRegs_setV_advance s x _⟩,
    ⟨_, exec_ldDt s x, rfl, rfl, rfl, rfl, ?_⟩, ⟨_, exec_ldSt s x, rfl, rfl, rfl, rfl, ?_⟩⟩
  all_goals exact ⟨fun _ _ => rfl, fun _ => rfl, ⟨rfl, rfl⟩, fun _ _ => rfl, ⟨fun _ => rfl, rfl, rfl, rfl⟩, rfl⟩

/-- Settles O49: `Fx0A` writes RUN and `pc` alone. -/
theorem keyWaitBegins : Obligations.KeyWaitBegins := fun s x =>
  ⟨_, exec_ldKey s x, rfl, rfl, fun _ _ => rfl, fun _ => rfl, ⟨rfl, rfl⟩, ⟨rfl, rfl, rfl⟩, fun _ _ => rfl, fun _ => rfl,
    rfl, rfl, rfl⟩

end Sys2Proof.Proofs

/-! PROOFS. What executing an instruction can do, said once over all 35 (`exec_outcome`): it answers a next state that
differs from the old one only where `ExecFrame` lets the instruction write, or it raises a cause other than a decode
error. Every statement about an arbitrary instruction is read off it. -/

namespace Sys2Proof.Proofs

open Sys2Proof Sys2Proof.Machine

/-- Where the next state `t` of instruction `ins` may differ from `s`. A field left out of a literal is a part the
instruction does not write, where `t` has the value of `s` by definition. -/
structure ExecFrame (ins : Instr) (s t : State) : Prop where
  regs : sameRegsBut (writtenRegs ins) s t := by exact fun _ _ => rfl
  mem : t.mem = s.mem ∨ storesToMemory ins = true := by exact .inl rfl
  memWf : s.mem.wf = true → t.mem.wf = true := by exact id
  stack : sameStack s t ∨ ins = .ret ∨ ∃ nnn, ins = .call nnn := by exact .inl ⟨rfl, rfl⟩
  display : sameDisplay s t ∨ ins = .cls ∨ ∃ x y n, ins = .drw x y n := by exact .inl fun _ _ => rfl
  dt : t.dt = s.dt ∨ ∃ x, ins = .ldDt x := by exact .inl rfl
  st : t.st = s.st ∨ ∃ x, ins = .ldSt x := by exact .inl rfl
  run : t.run = s.run ∨ ∃ x, ins = .ldKey x := by exact .inl rfl
  addr : t.i = s.i ∨ (∃ nnn, ins = .ldI nnn) ∨
    ∃ x, ins = .addI x ∨ ins = .ldGlyph x ∨ ins = .store x ∨ ins = .load x := by exact .inl rfl
  keys : ∀ k : Nibble, t.key k = s.key k := by exact fun _ => rfl
  legacySl : t.legacySl = s.legacySl := by exact rfl
  legacyShift : t.legacyShift = s.legacyShift := by exact rfl
  pc : pcSuccessor ins s t := by exact rfl

/-- What an instruction may answer. -/
inductive ExecOutcome (ins : Instr) (s : State) : Host.Outcome State Fault Refusal → Prop where
  | next (t : State) (frame : ExecFrame ins s t) : ExecOutcome ins s (.next t)
  | fault (c : Fault) (notDecode : ∀ w, c ≠ .decodeError w) : ExecOutcome ins s (.fault c)

/-- A skip writes one of its two successors to `pc`. -/
theorem execFrame_skipIf {ins : Instr} {s : State} (c : Bool)
    (hpc : ∀ t : State, t.pc = s.pc + 2 ∨ t.pc = s.pc + 4 → pcSuccessor ins s t) : ExecFrame ins s (s.skipIf c) := by
  cases c with
  | false => exact { pc := hpc s.advance (.inl rfl) }
  | true => exact { pc := hpc (s.setPc (s.pc + 4)) (.inr rfl) }

/-- A skip on a key, whatever it makes of the key's level: a skip, or the fault of the key index. -/
theorem execOutcome_keySkip {ins : Instr} (s : State) (b : Byte) (test : Bool → Bool)
    (hpc : ∀ t : State, t.pc = s.pc + 2 ∨ t.pc = s.pc + 4 → pcSuccessor ins s t) :
    ExecOutcome ins s (settle (keyState s b >>= fun pressed => pure (s.skipIf (test pressed)))) := by
  unfold keyState
  split
  · exact .next _ (execFrame_skipIf _ hpc)
  · exact .fault _ nofun

/-- A write of `V[x]` leaves the other registers. -/
theorem sameRegsBut_setV (s : State) (x : Nibble) (b : Byte) : sameRegsBut [x] s (s.setV x b) := fun r hr => by
  rw [State.readV_setV, if_neg (List.ne_of_not_mem_cons hr)]

/-- `V[0..x]` are the registers `Fx65` may write. -/
theorem mem_writtenRegs_load {x r : Nibble} (h : r.toNat ≤ x.toNat) : r ∈ writtenRegs (.load x) :=
  List.mem_map.mpr ⟨r.toNat, List.mem_range.mpr (Nat.lt_succ_of_le h), by rw [BitVec.ofNat_toNat, BitVec.setWidth_eq]⟩

/-- Loading a block into `V[0..x]` leaves the registers above. -/
theorem sameRegsBut_setVPrefix_blockAt (s : State) (x : Nibble) :
    sameRegsBut (writtenRegs (.load x)) s (s.setVPrefix (blockAt s x)) := fun r hr => by
  rw [State.readV_setVPrefix, blockAt_getElem?, if_neg (mt mem_writtenRegs_load hr), Option.getD_none]

/-- The next state of `Fx65`: `V[0..x]` and `I` are written. -/
theorem execFrame_setVPrefix_setI (s : State) {x : Nibble} (w : Word) :
    ExecFrame (.load x) s ((s.setVPrefix (blockAt s x)).setI w).advance := by
  have hmem : ((s.setVPrefix (blockAt s x)).setI w).advance.mem = s.mem := by
    rw [State.advance_mem, State.setI_mem, State.setVPrefix_mem]
  have hpc : ((s.setVPrefix (blockAt s x)).setI w).advance.pc = s.pc + 2 := by
    rw [State.advance_pc, State.setI_pc, State.setVPrefix_pc]
  obtain ⟨hstack, hdt, hst, hdisplay, ⟨hkeys, hrun, hsl, hshift⟩, _⟩ :=
    ((sameOutsideBlock_setVPrefix s (blockAt s x)).setI w).advance
  exact {
    regs := fun r hr => by
      rw [State.readV_advance, State.readV_setI, sameRegsBut_setVPrefix_blockAt s x r hr]
    mem := .inl hmem
    memWf := by rw [hmem]; exact id
    stack := .inl hstack
    display := .inl hdisplay
    dt := .inl hdt
    st := .inl hst
    run := .inl hrun
    addr := .inr (.inr ⟨x, .inr (.inr (.inr rfl))⟩)
    keys := hkeys
    legacySl := hsl
    legacyShift := hshift
    pc := by rw [pcSuccessor]; exact hpc }

/-- Every instruction keeps to its frame or raises a cause of its own (R260, R266), never a decode error. -/
theorem exec_outcome (ins : Instr) (s : State) : ExecOutcome ins s (exec ins s) := by
  cases ins with
  | cls => exact .next _ { display := .inr (.inl rfl) }
  | ret =>
    rcases Nat.eq_zero_or_pos s.sp.val with hsp | hsp
    · rw [exec_ret_empty hsp]
      exact .fault _ nofun
    · rw [exec_ret_live hsp]
      refine .next _ { stack := .inr (.inl rfl), pc := fun k hk => ?_ }
      have htop : s.sp.val - 1 = k.val := by omega
      simp only [State.setPc_pc, htop, Fin.getElem_fin]
  | sys nnn => exact .next _ {}
  | jp nnn => exact .next _ { pc := zextAddr_toNat nnn }
  | call nnn =>
    by_cases hsp : s.sp.val < 16
    · rw [exec_call_belowCapacity nnn hsp]
      exact .next _ { stack := .inr (.inr ⟨nnn, rfl⟩), pc := zextAddr_toNat nnn }
    · rw [exec_call_full nnn (by omega)]
      exact .fault _ nofun
  | jpV0 nnn => exact .next _ { pc := jpV0Target_toNat nnn (s.readV 0) }
  | seImm | sneImm | seReg | sneReg => exact .next _ (execFrame_skipIf _ fun _ h => h)
  | skp x => exact execOutcome_keySkip s (s.readV x) id fun _ h => h
  | sknp x => exact execOutcome_keySkip s (s.readV x) (!·) fun _ h => h
  | ldImm | addImm | ldReg | orReg | andReg | xorReg | ldFromDt => exact .next _ { regs := sameRegsBut_setV s _ _ }
  | rnd x kk => exact .next _ { regs := sameRegsBut_setV s.countDraw x _ }
  | addReg | subReg | shr | subn | shl =>
    obtain ⟨hregs, _⟩ := onlyRegs_afterFlagAndResult s _ _ _
    exact .next _ { regs := hregs }
  | ldI nnn => exact .next _ { addr := .inr (.inl ⟨nnn, rfl⟩) }
  | ldGlyph x => exact .next _ { addr := .inr (.inr ⟨x, .inr (.inl rfl)⟩) }
  | addI x =>
    by_cases hfit : s.i.toNat + (s.readV x).toNat ≤ 65535
    · rw [exec_addI_fits hfit]
      exact .next _ { addr := .inr (.inr ⟨x, .inl rfl⟩) }
    · rw [exec_addI_overflows (Nat.lt_of_not_le hfit)]
      exact .fault _ nofun
  | drw x y n =>
    rcases rows_fit_or_not s n with hin | ⟨hn, hout⟩
    · rw [exec_drw_inRange x y hin]
      exact .next _ { regs := sameRegsBut_setV _ vf _, display := .inr (.inr ⟨x, y, n, rfl⟩) }
    · rw [exec_drw_outOfRange x y hn hout]
      exact .fault _ nofun
  | bcd x =>
    by_cases hin : s.i.toNat + 2 ≤ 4095
    · rw [exec_bcd_inRange hin]
      exact .next _ { mem := .inr rfl, memWf := Memory.writeAll_wf (Nat.succ_le_succ hin) }
    · rw [exec_bcd_outOfRange (Nat.lt_of_not_le hin)]
      exact .fault _ nofun
  | store x =>
    by_cases hin : s.i.toNat + x.toNat ≤ 4095
    · have hfit : s.i.toNat + (regsUpTo s x).length ≤ 4096 := by rw [regsUpTo_length]; omega
      rw [exec_store_inRange hin]
      have hwf : s.mem.wf = true → (s.mem.writeAll s.i.toNat (regsUpTo s x)).wf = true := Memory.writeAll_wf hfit
      exact .next _ { mem := .inr rfl, memWf := hwf, addr := .inr (.inr ⟨x, .inr (.inr (.inl rfl))⟩) }
    · rw [exec_store_outOfRange (Nat.lt_of_not_le hin)]
      exact .fault _ nofun
  | load x =>
    by_cases hin : s.i.toNat + x.toNat ≤ 4095
    · rw [exec_load_inRange hin]
      exact .next _ (execFrame_setVPrefix_setI s (legacyI s x))
    · rw [exec_load_outOfRange (Nat.lt_of_not_le hin)]
      exact .fault _ nofun
  | ldKey x => exact .next _ { run := .inr ⟨x, rfl⟩ }
  | ldDt x => exact .next _ { dt := .inr ⟨x, rfl⟩ }
  | ldSt x => exact .next _ { st := .inr ⟨x, rfl⟩ }

theorem exec_frame {ins : Instr} {s t : State} (h : exec ins s = .next t) : ExecFrame ins s t := by
  have hout := exec_outcome ins s
  rw [h] at hout
  cases hout with
  | next _ frame => exact frame

theorem exec_ne_decodeError (ins : Instr) (s : State) (w : Word) : exec ins s ≠ .fault (.decodeError w) := by
  intro h
  have hout := exec_outcome ins s
  rw [h] at hout
  cases hout with
  | fault _ notDecode => exact notDecode w rfl

theorem exec_ne_refused (ins : Instr) (s : State) (r : Refusal) : exec ins s ≠ .refused r := by
  intro h
  have hout := exec_outcome ins s
  rw [h] at hout
  cases hout

/-- Settles O16, from the frame of the instruction. -/
theorem onlyStoresChangeMemory : Obligations.OnlyStoresChangeMemory := by
  intro ins s t hstore h addr
  rcases (exec_frame h).mem with hmem | hstores
  · exact congrArg (Memory.read · addr) hmem
  · cases hstore.symm.trans hstores

/-- Settles O17, from the frame of the instruction. -/
theorem onlyNamedRegistersAreWritten : Obligations.OnlyNamedRegistersAreWritten :=
  fun _ _ _ h => (exec_frame h).regs

/-- Settles O18, from the frame of the instruction. -/
theorem eachPartHasItsOnlyWriters : Obligations.EachPartHasItsOnlyWriters := by
  intro ins s t h
  have frame := exec_frame h
  exact ⟨frame.stack, frame.display, frame.dt, frame.st, frame.run, frame.addr, frame.keys⟩

/-- Settles O19, from the frame of the instruction. -/
theorem pcGoesOnlyToItsSuccessors : Obligations.PcGoesOnlyToItsSuccessors :=
  fun _ _ _ h => (exec_frame h).pc

end Sys2Proof.Proofs

/-! PROOFS. The step (40_step_and_host_ops.md R121 to R126): what it does in each value of RUN, and so what a step that
answers a next state has done (`step_next_cases`). -/

namespace Sys2Proof.Proofs

open Sys2Proof Sys2Proof.Machine

/-- The word at `pc`, high byte first (R122). -/
def wordAtPc (s : State) : Word := s.byteAt s.pc.toNat ++ s.byteAt (s.pc.toNat + 1)

theorem step_of_fetchable {s : State} (hrun : s.run = .running) (hpc : s.pc.toNat ≤ 4094) :
    step s = decodeAndExecute (wordAtPc s) s := by
  simp only [step, cycle, hrun, fetch_inRange hpc, wordAtPc]

theorem step_awaitingKey {s : State} {x : Nibble} (h : s.run = .awaitingKey x) : step s = .next s := by
  simp only [step, cycle, h]

theorem step_faulted {s : State} {c : Fault} (h : s.run = .faulted c) : step s = .fault c := by
  simp only [step, cycle, h, raise]

theorem decodeAndExecute_some {w : Word} {ins : Instr} (h : decodeWord w = some ins) (s : State) :
    decodeAndExecute w s = exec ins s := by
  simp only [decodeAndExecute, h]

theorem decodeAndExecute_none {w : Word} (h : decodeWord w = none) (s : State) :
    decodeAndExecute w s = .fault (.decodeError w) := by
  simp only [decodeAndExecute, h, raise]

/-- Settles O1: the fetch composes the word at `pc`, and its decoding chooses what is executed. -/
theorem stepRunsDecodedInstruction : Obligations.StepRunsDecodedInstruction :=
  fun s _ hrun hpc hdec => (step_of_fetchable hrun hpc).trans (decodeAndExecute_some hdec s)

/-- What a step can do: nothing while waiting for a key; raise a cause of its own, met before or in the fetch or the
decoding; or run one instruction, from a `pc` that can be fetched from. -/
theorem step_cases (s : State) :
    step s = .next s ∨ (∃ c, step s = .fault c) ∨ s.pc.toNat ≤ 4094 ∧ ∃ ins, step s = exec ins s := by
  cases hrun : s.run with
  | faulted c => exact .inr (.inl ⟨c, step_faulted hrun⟩)
  | awaitingKey x => exact .inl (step_awaitingKey hrun)
  | running =>
    by_cases hpc : s.pc.toNat ≤ 4094
    · have hstep := step_of_fetchable hrun hpc
      cases hdec : decodeWord (wordAtPc s) with
      | none => exact .inr (.inl ⟨_, hstep.trans (decodeAndExecute_none hdec s)⟩)
      | some ins => exact .inr (.inr ⟨hpc, ins, hstep.trans (decodeAndExecute_some hdec s)⟩)
    · exact .inr (.inl ⟨_, step_of_fetch_error hrun (fetch_outOfRange (Nat.lt_of_not_le hpc))⟩)

/-- What a step that answers a next state has done. -/
theorem step_next_cases {s t : State} (h : step s = .next t) :
    t = s ∨ s.pc.toNat ≤ 4094 ∧ ∃ ins, exec ins s = .next t := by
  rcases step_cases s with hwait | ⟨c, hfault⟩ | ⟨hpc, ins, hexec⟩
  · cases hwait.symm.trans h
    exact .inl rfl
  · cases hfault.symm.trans h
  · exact .inr ⟨hpc, ins, hexec.symm.trans h⟩

/-- Settles O6: a step that is neither a next state nor a fault runs an instruction, which is never refused
(`exec_ne_refused`). -/
theorem noStepIsRefused : Obligations.NoStepIsRefused := by
  intro s r h
  rcases step_cases s with hwait | ⟨c, hfault⟩ | ⟨_, ins, hexec⟩
  · cases hwait.symm.trans h
  · cases hfault.symm.trans h
  · exact exec_ne_refused ins s r (hexec.symm.trans h)

end Sys2Proof.Proofs

/-! PROOFS. The words that do not decode (30_encoding.md R96) and the word at `pc`: when STEP raises a decode error, and
which instruction it runs at a jump to itself and after a word is placed. -/

namespace Sys2Proof.Proofs

open Sys2Proof Sys2Proof.Machine

theorem fieldN_eq_iff (w : Word) (n : Nibble) : fieldN w = n ↔ w.toNat % 16 = n.toNat := by
  rw [← BitVec.toNat_inj, fieldN_toNat]

theorem fieldKk_eq_iff (w : Word) (kk : Byte) : fieldKk w = kk ↔ w.toNat % 256 = kk.toNat := by
  rw [← BitVec.toNat_inj, fieldKk_toNat]

/-- A branch that decodes is not the one that refuses. -/
theorem ite_some_eq_none_iff {c : Prop} [Decidable c] (i : Instr) (rest : Option Instr) :
    (if c then some i else rest) = none ↔ ¬c ∧ rest = none := by
  split <;> simp_all

theorem decodeGroup0_ne_none (w : Word) : decodeGroup0 w ≠ none := by
  simp [decodeGroup0, ite_some_eq_none_iff]

/-! The undefined words of each group, in the terms of the list of R96. -/

theorem decodeGroup5_eq_none_iff (w : Word) : decodeGroup5 w = none ↔ w.toNat % 16 ≠ 0 := by
  simp [decodeGroup5, fieldN_eq_iff]

theorem decodeGroup9_eq_none_iff (w : Word) : decodeGroup9 w = none ↔ w.toNat % 16 ≠ 0 := by
  simp [decodeGroup9, fieldN_eq_iff]

theorem decodeGroup8_eq_none_iff (w : Word) :
    decodeGroup8 w = none ↔ w.toNat % 16 ∈ [0x8, 0x9, 0xA, 0xB, 0xC, 0xD, 0xF] := by
  simp [decodeGroup8, ite_some_eq_none_iff, fieldN_eq_iff]
  omega

theorem decodeGroupE_eq_none_iff (w : Word) : decodeGroupE w = none ↔ w.toNat % 256 ∉ [0x9E, 0xA1] := by
  simp [decodeGroupE, ite_some_eq_none_iff, fieldKk_eq_iff]

theorem decodeGroupF_eq_none_iff (w : Word) :
    decodeGroupF w = none ↔ w.toNat % 256 ∉ [0x07, 0x0A, 0x15, 0x18, 0x1E, 0x29, 0x33, 0x55, 0x65] := by
  simp [decodeGroupF, ite_some_eq_none_iff, fieldKk_eq_iff]

/-- The decoder refuses exactly the words of the list of 30_encoding.md R96: `op` chooses the group, and the group's
sub-discriminant decides. -/
theorem decodeWord_eq_none_iff (w : Word) : decodeWord w = none ↔ undefinedWord w = true := by
  have hdigit := fieldOp_toNat w
  rcases nibble_cases (fieldOp w) with hop | hop | hop | hop | hop | hop | hop | hop | hop | hop | hop | hop | hop |
    hop | hop | hop <;> rw [hop] at hdigit
  · simp [decodeWord_op0 hop, undefinedWord, ← hdigit, decodeGroup0_ne_none]
  · simp [decodeWord_op1 hop, undefinedWord, ← hdigit]
  · simp [decodeWord_op2 hop, undefinedWord, ← hdigit]
  · simp [decodeWord_op3 hop, undefinedWord, ← hdigit]
  · simp [decodeWord_op4 hop, undefinedWord, ← hdigit]
  · simp [decodeWord_op5 hop, undefinedWord, ← hdigit, decodeGroup5_eq_none_iff]
  · simp [decodeWord_op6 hop, undefinedWord, ← hdigit]
  · simp [decodeWord_op7 hop, undefinedWord, ← hdigit]
  · simp [decodeWord_op8 hop, undefinedWord, ← hdigit, decodeGroup8_eq_none_iff]
  · simp [decodeWord_op9 hop, undefinedWord, ← hdigit, decodeGroup9_eq_none_iff]
  · simp [decodeWord_opA hop, undefinedWord, ← hdigit]
  · simp [decodeWord_opB hop, undefinedWord, ← hdigit]
  · simp [decodeWord_opC hop, undefinedWord, ← hdigit]
  · simp [decodeWord_opD hop, undefinedWord, ← hdigit]
  · simp [decodeWord_opE hop, undefinedWord, ← hdigit, decodeGroupE_eq_none_iff]
  · simp [decodeWord_opF hop, undefinedWord, ← hdigit, decodeGroupF_eq_none_iff]

/-- Settles O3: a word outside the list decodes, and no instruction raises a decode error (`exec_ne_decodeError`); a word
of the list does not decode, and STEP raises it. -/
theorem decodeErrorExactlyOnUndefinedWords : Obligations.DecodeErrorExactlyOnUndefinedWords := by
  intro s hrun hpc w hw
  have hstep : step s = decodeAndExecute w s := hw ▸ step_of_fetchable hrun hpc
  have hraise (h : undefinedWord w = true) : step s = .fault (.decodeError w) :=
    hstep.trans (decodeAndExecute_none ((decodeWord_eq_none_iff w).mpr h) s)
  refine ⟨⟨fun ⟨v, hv⟩ => ?_, fun h => ⟨w, hraise h⟩⟩, hraise⟩
  rw [← decodeWord_eq_none_iff]
  cases hdec : decodeWord w with
  | none => rfl
  | some ins => exact absurd ((hstep.trans (decodeAndExecute_some hdec s)).symm.trans hv) (exec_ne_decodeError ins s v)

/-- Settles O20: the bytes are those of the word of `1nnn`, which decodes to it, and a jump to its own address changes
nothing (`jumpSetsPc`). -/
theorem selfJumpLeavesTheStateUnchanged : Obligations.SelfJumpLeavesTheStateUnchanged := by
  intro s nnn hrun hpc hself hbytes
  obtain ⟨hhi, hlo⟩ : s.byteAt s.pc.toNat = highByte (encodeWord (.jp nnn)) ∧
      s.byteAt (s.pc.toNat + 1) = lowByte (encodeWord (.jp nnn)) := by simpa [encode] using hbytes
  have hdec : decodeWord (s.byteAt s.pc.toNat ++ s.byteAt (s.pc.toNat + 1)) = some (.jp nnn) := by
    rw [hhi, hlo, ← composeWord, composeWord_bytes]
    exact decodeWord_encodeWord rfl
  obtain ⟨t, ht, _, _, _, hsame⟩ := jumpSetsPc s nnn
  rw [stepRunsDecodedInstruction s _ hrun hpc hdec, ht, hsame hself]

/-- The address a word is placed at is one that can be fetched from (log 21). -/
theorem fetchPc_le (s : State) : (fetchPc s).toNat ≤ 4094 := by
  unfold fetchPc
  split
  · assumption
  · decide

/-- A placed word is the word at `pc`, over a canonical memory. -/
theorem wordAtPc_placeFetchWord {s : State} (hm : s.mem.wf = true) (w : Word) : wordAtPc (placeFetchWord s w) = w := by
  have hpc := fetchPc_le s
  have hfit : (fetchPc s).toNat + [highByte w, lowByte w].length ≤ 4096 := Nat.add_le_add_right hpc 2
  have hhi : (placeFetchWord s w).byteAt (fetchPc s).toNat = highByte w := read_writeAll_entry (k := 0) hfit hm rfl
  have hlo : (placeFetchWord s w).byteAt ((fetchPc s).toNat + 1) = lowByte w := read_writeAll_entry (k := 1) hfit hm rfl
  calc wordAtPc (placeFetchWord s w)
      = (placeFetchWord s w).byteAt (fetchPc s).toNat ++ (placeFetchWord s w).byteAt ((fetchPc s).toNat + 1) := rfl
    _ = composeWord (highByte w) (lowByte w) := by rw [hhi, hlo, composeWord]
    _ = w := composeWord_bytes w

/-- Settles O11: the placed word stands at a `pc` that can be fetched from, and is the word the table's number decodes
as (`wordAtPc_placeFetchWord`, `decodeTableWord_eq`). -/
theorem placedWordIsTheOneThatRuns : Obligations.PlacedWordIsTheOneThatRuns := by
  intro s w ins hm hdec
  have hw : BitVec.ofNat 16 (w % 2 ^ 16) = BitVec.ofNat 16 w := BitVec.eq_of_toNat_eq (by simp)
  rw [decodeTableWord_eq] at hdec
  rw [State.withFetchWord, hw, step_of_fetchable rfl (fetchPc_le s), wordAtPc_placeFetchWord hm,
    decodeAndExecute_some hdec]

end Sys2Proof.Proofs

/-! PROOFS. The invariants (10_state.md R37): they hold at reset and every step keeps them. -/

namespace Sys2Proof.Proofs

open Sys2Proof Sys2Proof.Machine

/-- The invariants are about memory, `pc` and the stack alone. -/
theorem inv_of_sameStack {s t : State} (hs : s.Inv) (hm : t.mem.wf = true) (hpc : t.pc.toNat ≤ 0x10FE)
    (hstack : sameStack s t) : t.Inv := by
  obtain ⟨hsp, hentries⟩ := hstack
  refine ⟨hm, hpc, fun k hk => ?_⟩
  rw [hentries]
  exact hs.liveEntries k (hsp ▸ hk)

/-- From a `pc` that can be fetched from, every successor but a popped entry is at most 0x10FE: the largest is the sum of
`Bnnn` (R161). -/
theorem pc_le_of_pcSuccessor {ins : Instr} {s t : State} (hpc : s.pc.toNat ≤ 4094) (hne : ins ≠ .ret)
    (h : pcSuccessor ins s t) : t.pc.toNat ≤ 0x10FE := by
  have htwo : (s.pc + 2).toNat ≤ 4096 := by bv_omega
  have hfour : (s.pc + 4).toNat ≤ 4098 := by bv_omega
  cases ins with
  | ret => exact absurd rfl hne
  | jp nnn | call nnn =>
    have hnnn := nnn.isLt
    have htarget : t.pc.toNat = nnn.toNat := h
    omega
  | jpV0 nnn =>
    have hnnn := nnn.isLt
    have hbyte := (s.readV 0).isLt
    have htarget : t.pc.toNat = nnn.toNat + (s.readV 0).toNat := h
    omega
  | seImm | sneImm | seReg | sneReg | skp | sknp =>
    have htarget : t.pc = s.pc + 2 ∨ t.pc = s.pc + 4 := h
    rcases htarget with htarget | htarget <;> rw [htarget] <;> omega
  | _ =>
    have htarget : t.pc = s.pc + 2 := h
    rw [htarget]
    omega

/-- A call pushes an entry in range, since it was fetched from at most 4094. -/
theorem exec_call_keepsInv {s t : State} {nnn : Addr12} (hs : s.Inv) (hpc : s.pc.toNat ≤ 4094)
    (h : exec (.call nnn) s = .next t) : t.Inv := by
  have frame := exec_frame h
  obtain ⟨t', ht', _, hsp, hstack, _⟩ := (callPushesReturnAddress s nnn).1 (sp_lt_of_exec_call h)
  cases h.symm.trans ht'
  refine ⟨frame.memWf hs.memWf, pc_le_of_pcSuccessor (ins := .call nnn) hpc nofun frame.pc, fun k hk => ?_⟩
  rw [hstack]
  split
  · bv_omega
  · exact hs.liveEntries k (by omega)

/-- A return pops a live entry, which is in range, and keeps the entries below. -/
theorem exec_ret_keepsInv {s t : State} (hs : s.Inv) (h : exec .ret s = .next t) : t.Inv := by
  have hsp : s.sp.val ≠ 0 := fun hempty => by cases (exec_ret_empty hempty).symm.trans h
  have hle := s.sp.isLt
  obtain ⟨t', ht', hpc, htsp, hstack, _⟩ :=
    (returnPopsTopEntry s).1 ⟨s.sp.val - 1, by omega⟩ (Nat.succ_pred hsp)
  cases h.symm.trans ht'
  obtain ⟨_, htop⟩ := hs.liveEntries ⟨s.sp.val - 1, by omega⟩ (Nat.pred_lt hsp)
  refine ⟨(exec_frame h).memWf hs.memWf, by rw [hpc]; omega, fun k hk => ?_⟩
  rw [htsp] at hk
  rw [hstack k hk]
  exact hs.liveEntries k (Nat.lt_of_lt_pred hk)

/-- Every instruction fetched from a `pc` of at most 4094 keeps the invariants. -/
theorem exec_keepsInv {ins : Instr} {s t : State} (hs : s.Inv) (hpc : s.pc.toNat ≤ 4094) (h : exec ins s = .next t) :
    t.Inv := by
  have frame := exec_frame h
  rcases frame.stack with hstack | rfl | ⟨nnn, rfl⟩
  · by_cases hret : ins = .ret
    · exact exec_ret_keepsInv hs (hret ▸ h)
    · exact inv_of_sameStack hs (frame.memWf hs.memWf) (pc_le_of_pcSuccessor hpc hret frame.pc) hstack
  · exact exec_ret_keepsInv hs h
  · exact exec_call_keepsInv hs hpc h

/-- Settles O12: a step does nothing, or runs one instruction from a `pc` of at most 4094 (`exec_keepsInv`). -/
theorem stepKeepsInvariant : Obligations.StepKeepsInvariant := by
  intro s t hs h
  rcases step_next_cases h with rfl | ⟨hpc, ins, hexec⟩
  · exact hs
  · exact exec_keepsInv hs hpc hexec

/-- The invariants after RESET, whatever draws have been taken: memory is canonical (`State.construct_mem_wf`) and no
entry is live. -/
theorem construct_inv (glyphs : Vector Byte 80) (sl shift : Bool) (draws : Nat) :
    State.Inv { State.construct glyphs sl shift with draws := draws } :=
  ⟨State.construct_mem_wf glyphs sl shift, show 512 ≤ 0x10FE by decide, fun k hk => absurd hk (Nat.not_lt_zero k.val)⟩

/-- Settles O13: RESET with any arguments (`construct_inv`), and the reset state in the same way. -/
theorem resetMeetsInvariant : Obligations.ResetMeetsInvariant :=
  ⟨⟨rfl, by decide, fun k hk => absurd hk (Nat.not_lt_zero k.val)⟩, fun glyphs sl shift => construct_inv glyphs sl shift 0⟩

end Sys2Proof.Proofs

/-! PROOFS. What an operation of the host does (40_step_and_host_ops.md R120 to R132), said once over all six
(`perform_effect`), with KEY's two cases; every statement about an arbitrary operation is read off it. -/

namespace Sys2Proof.Proofs

open Sys2Proof Sys2Proof.Machine

/-- KEY in a machine that has met no fatal condition: on a press edge during a wait it also ends the wait; otherwise it
only sets the key (R129, R130). -/
theorem setInput_cases {s : State} (hs : s.isFaulted = false) (k : Nibble) (pressed : Bool) :
    (∃ x, s.run = .awaitingKey x ∧ s.key k = false ∧ pressed = true ∧
      setInput k pressed s = (((s.setKey k pressed).setV x (k.setWidth 8)).setRun .running, .ok)) ∨
    (s.run = .running ∨ s.key k = true ∨ pressed = false) ∧ setInput k pressed s = (s.setKey k pressed, .ok) := by
  by_cases hedge : s.key k = false ∧ pressed = true
  · obtain ⟨hk, rfl⟩ := hedge
    rcases State.notFaulted_cases hs with hrun | ⟨x, hrun⟩
    · exact .inr ⟨.inl hrun, by simp [setInput, endKeyWait, hk, hrun]⟩
    · exact .inl ⟨x, hrun, hk, rfl, by simp [setInput, endKeyWait, hk, hrun]⟩
  · have hnone : s.key k = true ∨ pressed = false := by
      cases hk : s.key k <;> simp_all
    exact .inr ⟨.inr hnone, by rcases hnone with hk | hp <;> simp [setInput, *]⟩

theorem perform_key_inDomain {n : Nat} (h : n < 16) (pressed : Bool) (s : State) :
    perform (.key n pressed) s = beforeFatal s (setInput (BitVec.ofNat 4 n) pressed s) := if_pos h

theorem perform_key_outsideDomain {n : Nat} (h : 16 ≤ n) (pressed : Bool) (s : State) :
    perform (.key n pressed) s = .refused (.keyOutsideDomain n) := if_neg (Nat.not_lt_of_le h)

theorem perform_pixel_outsideDomain {x y : Nat} (h : ¬(x < 64 ∧ y < 32)) (s : State) :
    perform (.pixel x y) s = .refused (.pixelOutsideDomain x y) := dif_neg h

/-- Settles O55: both checks of the domain come before anything else. -/
theorem callsOutsideTheirDomainAreRefused : Obligations.CallsOutsideTheirDomainAreRefused := fun s =>
  ⟨fun _ pressed hk => perform_key_outsideDomain hk pressed s,
    fun _ _ hxy => perform_pixel_outsideDomain (by omega) s⟩

/-- A key by its index: the call is inside KEY's domain. -/
theorem perform_key {s : State} (hs : s.isFaulted = false) (k : Nibble) (pressed : Bool) :
    perform (.key k.toNat pressed) s = .done (setInput k pressed s).1 .ok := by
  rw [perform_key_inDomain k.isLt, BitVec.ofNat_toNat, BitVec.setWidth_eq, beforeFatal_notFaulted hs]
  rfl

/-- Settles O50: on the edge KEY writes one key, `V[x]` and RUN, otherwise one key (`setInput_cases`). -/
theorem keyReportsAndEndsTheWait : Obligations.KeyReportsAndEndsTheWait := by
  intro s k pressed hs
  refine ⟨_, perform_key hs k pressed, ?_⟩
  rcases setInput_cases hs k pressed with ⟨x, hrun, hk, rfl, hset⟩ | ⟨hnone, hset⟩
  · rw [hset]
    refine ⟨?_, fun j hj => ?_, fun y hy _ _ => ⟨rfl, ?_, ?_⟩, fun hnone => ?_, rfl, fun _ => rfl, ⟨rfl, rfl⟩,
      ⟨rfl, rfl, rfl⟩, fun _ _ => rfl, rfl, rfl, rfl⟩
    · rw [State.key_setRun, State.key_setV, State.key_setKey, if_pos rfl]
    · rw [State.key_setRun, State.key_setV, State.key_setKey, if_neg hj]
    · cases hrun.symm.trans hy
      rw [State.readV_setRun, State.readV_setV, if_pos rfl, BitVec.toNat_setWidth]
      exact Nat.mod_eq_of_lt (k.isLt.trans (by decide))
    · cases hrun.symm.trans hy
      exact sameRegsBut_setV (s.setKey k true) x _
    · simp [hrun, hk] at hnone
  · rw [hset]
    refine ⟨?_, fun j hj => ?_, fun x hrun hk hp => ?_, fun _ => ⟨rfl, fun _ _ => rfl⟩, rfl, fun _ => rfl, ⟨rfl, rfl⟩,
      ⟨rfl, rfl, rfl⟩, fun _ _ => rfl, rfl, rfl, rfl⟩
    · rw [State.key_setKey, if_pos rfl]
    · rw [State.key_setKey, if_neg hj]
    · simp [hrun, hk, hp] at hnone

/-- What an operation that is done leaves, by operation. -/
inductive HostEffect (s : State) : HostOp → State → Prop where
  | reset (glyphs : Vector Byte 80) (sl shift : Bool) :
      HostEffect s (.reset glyphs sl shift) { State.construct glyphs sl shift with draws := s.draws }
  | step {t : State} (h : step s = .next t) : HostEffect s .step t
  | stepFatal (c : Fault) : HostEffect s .step (enterFaulted c s)
  | stepAgain (h : s.isFaulted = true) : HostEffect s .step s
  | load (bytes : List Byte) (h : s.isFaulted = false) (hlen : bytes.length ≤ 3584) :
      HostEffect s (.load bytes) (s.setMem (s.mem.writeAll 512 bytes))
  | loadOversize (bytes : List Byte) (h : s.isFaulted = false) : HostEffect s (.load bytes) s
  | tick (h : s.isFaulted = false) : HostEffect s .tick ((s.setDt (tickDown s.dt)).setSt (tickDown s.st))
  | key (n : Nat) (pressed : Bool) (h : s.isFaulted = false) :
      HostEffect s (.key n pressed) (setInput (BitVec.ofNat 4 n) pressed s).1
  | pixel (x y : Nat) (h : s.isFaulted = false) : HostEffect s (.pixel x y) s

/-- A LOAD that fits (R127). -/
theorem loadProgram_fits {bytes : List Byte} (h : bytes.length ≤ 3584) (s : State) :
    loadProgram bytes s = (s.setMem (s.mem.writeAll 512 bytes), .ok) :=
  if_pos h

theorem enterFaulted_run (c : Fault) (s : State) : (enterFaulted c s).run = .faulted c := by rw [enterFaulted]

theorem enterFaulted_legacySl (c : Fault) (s : State) : (enterFaulted c s).legacySl = s.legacySl := by rw [enterFaulted]

theorem enterFaulted_legacyShift (c : Fault) (s : State) : (enterFaulted c s).legacyShift = s.legacyShift := by
  rw [enterFaulted]

/-- What the operation STEP leaves (R268). -/
theorem stepOperation_effect {s t : State} {r : Reply} (h : stepOperation s = .done t r) : HostEffect s .step t := by
  unfold stepOperation at h
  cases hstep : step s with
  | next u =>
    rw [hstep] at h
    cases h
    exact .step hstep
  | refused e => exact absurd hstep (noStepIsRefused s e)
  | fault c =>
    rw [hstep] at h
    cases hrun : s.run with
    | faulted c' =>
      rw [hrun] at h
      cases h
      exact .stepAgain (by rw [State.isFaulted, hrun])
    | running | awaitingKey =>
      rw [hrun] at h
      obtain ⟨ht, _⟩ := OpOutcome.done.inj h
      exact ht ▸ .stepFatal c

theorem perform_effect {op : HostOp} {s t : State} {r : Reply} (h : perform op s = .done t r) : HostEffect s op t := by
  cases op with
  | reset glyphs sl shift =>
    cases h
    exact .reset glyphs sl shift
  | step => exact stepOperation_effect h
  | load bytes =>
    obtain ⟨hs, rfl, _⟩ := beforeFatal_done h
    by_cases hlen : bytes.length ≤ 3584
    · rw [loadProgram_fits hlen]
      exact .load bytes hs hlen
    · rw [loadProgram_oversize (Nat.lt_of_not_le hlen)]
      exact .loadOversize bytes hs
  | tick =>
    obtain ⟨hs, rfl, _⟩ := beforeFatal_done h
    exact .tick hs
  | key n pressed =>
    by_cases hn : n < 16
    · rw [perform_key_inDomain hn] at h
      obtain ⟨hs, rfl, _⟩ := beforeFatal_done h
      exact .key n pressed hs
    · cases (perform_key_outsideDomain (Nat.le_of_not_lt hn) pressed s).symm.trans h
  | pixel x y =>
    by_cases hxy : x < 64 ∧ y < 32
    · rw [perform_pixel_inDomain ⟨x, hxy.1⟩ ⟨y, hxy.2⟩] at h
      obtain ⟨hs, rfl, _⟩ := beforeFatal_done h
      exact .pixel x y hs
    · cases (perform_pixel_outsideDomain hxy s).symm.trans h

/-- KEY leaves memory, `pc`, stack and flags. -/
theorem setInput_frame {s : State} (hs : s.isFaulted = false) (k : Nibble) (pressed : Bool) :
    (setInput k pressed s).1.mem = s.mem ∧ (setInput k pressed s).1.pc = s.pc ∧ sameStack s (setInput k pressed s).1 ∧
      (setInput k pressed s).1.legacySl = s.legacySl ∧ (setInput k pressed s).1.legacyShift = s.legacyShift := by
  rcases setInput_cases hs k pressed with ⟨x, _, _, _, hset⟩ | ⟨_, hset⟩ <;> rw [hset] <;>
    exact ⟨rfl, rfl, ⟨rfl, rfl⟩, rfl, rfl⟩

theorem faulted_of_isFaulted {s : State} (h : s.isFaulted = true) : ∃ c, s.run = .faulted c := by
  cases hrun : s.run with
  | faulted c => exact ⟨c, rfl⟩
  | running | awaitingKey => simp [State.isFaulted, hrun] at h

/-- A faulted machine answers its cause, so a step that answers a next state began before any fatal condition. -/
theorem notFaulted_of_step_next {s t : State} (h : step s = .next t) : s.isFaulted = false := by
  by_contra hfaulted
  obtain ⟨c, hrun⟩ := faulted_of_isFaulted (Bool.not_eq_false _ ▸ hfaulted)
  cases (step_faulted hrun).symm.trans h

/-- An operation that leaves a machine without a fatal condition keeps the invariants, or establishes them (RESET). -/
theorem hostEffect_keepsInv {op : HostOp} {s t : State} (h : HostEffect s op t) (hs : s.isFaulted = false → s.Inv)
    (ht : t.isFaulted = false) : t.Inv := by
  cases h with
  | reset glyphs sl shift => exact construct_inv glyphs sl shift s.draws
  | step hstep => exact stepKeepsInvariant s t (hs (notFaulted_of_step_next hstep)) hstep
  | stepFatal c => cases ht
  | stepAgain hfaulted => cases hfaulted.symm.trans ht
  | load bytes hrun hlen =>
    have hinv := hs hrun
    exact inv_of_sameStack hinv (Memory.writeAll_wf (show _ ≤ 4096 by omega) hinv.memWf) hinv.pcBound ⟨rfl, rfl⟩
  | loadOversize | pixel => exact hs ht
  | tick hrun =>
    have hinv := hs hrun
    exact inv_of_sameStack hinv hinv.memWf hinv.pcBound ⟨rfl, rfl⟩
  | key n pressed hrun =>
    have hinv := hs hrun
    obtain ⟨hmem, hpc, hstack, _⟩ := setInput_frame hrun (BitVec.ofNat 4 n) pressed
    exact inv_of_sameStack hinv (by rw [hmem]; exact hinv.memWf) (by rw [hpc]; exact hinv.pcBound) hstack

/-- Settles O14, by induction on the schedule. -/
theorem reachableStatesMeetInvariant : Obligations.ReachableStatesMeetInvariant := by
  intro s hs
  induction hs with
  | reset glyphs sl shift draws => exact fun _ => construct_inv glyphs sl shift draws
  | perform op r _ h ih => exact hostEffect_keepsInv (perform_effect h) ih

/-- An instruction keeps both flags, and so does a step. -/
theorem step_keepsFlags {s t : State} (h : step s = .next t) :
    t.legacySl = s.legacySl ∧ t.legacyShift = s.legacyShift := by
  rcases step_next_cases h with rfl | ⟨_, ins, hexec⟩
  · exact ⟨rfl, rfl⟩
  · exact ⟨(exec_frame hexec).legacySl, (exec_frame hexec).legacyShift⟩

/-- Settles O15, operation by operation (`perform_effect`). -/
theorem configurationIsConstant : Obligations.ConfigurationIsConstant := by
  refine ⟨fun s glyphs sl shift => ⟨_, rfl, rfl, rfl⟩, fun s t op r hreset h => ?_⟩
  cases perform_effect h with
  | reset glyphs sl shift => exact absurd rfl (hreset glyphs sl shift)
  | step hstep => exact step_keepsFlags hstep
  | stepFatal c => exact ⟨enterFaulted_legacySl c s, enterFaulted_legacyShift c s⟩
  | stepAgain | load | loadOversize | tick | pixel => exact ⟨rfl, rfl⟩
  | key n pressed hrun =>
    obtain ⟨_, _, _, hflags⟩ := setInput_frame hrun (BitVec.ofNat 4 n) pressed
    exact hflags

/-- The view of KEYS shows the keys alone. -/
theorem readBackKeys_congr {s t : State} (h : ∀ k : Nibble, t.key k = s.key k) : readBackKeys t = readBackKeys s := by
  refine Vector.ext fun k hk => ?_
  have hkey := h (BitVec.ofNat 4 k)
  simpa [State.key, readBackKeys, Nat.mod_eq_of_lt hk] using hkey

/-- Settles O58: the view shows each key, KEY sets one (`keyReportsAndEndsTheWait`), and no other operation writes KEYS
(`perform_effect`). -/
theorem keysReadBackAsReported : Obligations.KeysReadBackAsReported := by
  refine ⟨readBackKeys_getElem, fun s k pressed hs => ?_, fun op s t r hkey hreset h ht => ?_⟩
  · obtain ⟨t, hdone, hk, hother, _⟩ := keyReportsAndEndsTheWait s k pressed hs
    exact ⟨t, hdone, hk, hother⟩
  · cases perform_effect h with
    | reset glyphs sl shift => exact absurd rfl (hreset glyphs sl shift)
    | key n pressed => exact absurd rfl (hkey n pressed)
    | stepFatal => cases ht
    | stepAgain | load | loadOversize | tick | pixel => rfl
    | step hstep =>
      rcases step_next_cases hstep with rfl | ⟨_, ins, hexec⟩
      · rfl
      · exact readBackKeys_congr (exec_frame hexec).keys

end Sys2Proof.Proofs

/-! PROOFS. The host operations one by one (40_step_and_host_ops.md R125 to R136, 60_exceptions.md R268, R274, R275,
70_reset_and_hazards.md R300, R304). -/

namespace Sys2Proof.Proofs

open Sys2Proof Sys2Proof.Machine

theorem perform_load {s : State} (hs : s.isFaulted = false) (bytes : List Byte) :
    perform (.load bytes) s = .done (loadProgram bytes s).1 (loadProgram bytes s).2 := beforeFatal_notFaulted hs _

theorem perform_tick {s : State} (hs : s.isFaulted = false) :
    perform .tick s = .done ((s.setDt (tickDown s.dt)).setSt (tickDown s.st)) (.tone (s.st != 0)) :=
  beforeFatal_notFaulted hs _

/-- LOAD keeps RUN, whatever its length. -/
theorem loadProgram_run (bytes : List Byte) (s : State) : (loadProgram bytes s).1.run = s.run := by
  unfold loadProgram
  split <;> rfl

/-- Settles O4: waiting is no fatal condition, so every operation happens; KEY's two cases are those of
`keyReportsAndEndsTheWait`. -/
theorem onlyAKeyPressLiftsTheWait : Obligations.OnlyAKeyPressLiftsTheWait := by
  intro s x hrun
  have hs : s.isFaulted = false := by rw [State.isFaulted, hrun]
  have hstep := step_awaitingKey hrun
  refine ⟨hstep, ?_, ⟨_, _, perform_tick hs, hrun⟩,
    fun bytes => ⟨_, _, perform_load hs bytes, (loadProgram_run bytes s).trans hrun⟩,
    fun px py hx hy => ⟨_, _, pixelReadsTheFramebuffer s ⟨px, hx⟩ ⟨py, hy⟩ hs, hrun⟩, fun k pressed hnone => ?_,
    fun k hk => ?_⟩
  · rw [perform, stepOperation, hstep]
  · obtain ⟨t, hdone, _, _, _, hkeep, _⟩ := keyReportsAndEndsTheWait s k pressed hs
    obtain ⟨hsame, _⟩ := hkeep (.inr hnone)
    exact ⟨t, hdone, hsame.trans hrun⟩
  · obtain ⟨t, hdone, _, _, hend, _⟩ := keyReportsAndEndsTheWait s k true hs
    obtain ⟨hrunning, _⟩ := hend x hrun hk rfl
    exact ⟨t, hdone, hrunning⟩

/-- Settles O5: the fatal STEP enters `Faulted` with its cause and keeps the flags; afterwards STEP answers the cause
again, and what has a meaning only before a fatal condition is refused (`beforeFatal_faulted`). -/
theorem fatalConditionIsAbsorbing : Obligations.FatalConditionIsAbsorbing := by
  refine ⟨fun s c hrun hstep => ⟨enterFaulted c s, ?_, enterFaulted_run c s, enterFaulted_legacySl c s,
    enterFaulted_legacyShift c s⟩, fun s c hrun => ?_⟩
  · rw [perform, stepOperation, hstep, hrun]
  · have hstep := step_faulted hrun
    refine ⟨hstep, ?_, beforeFatal_faulted hrun _, fun bytes => beforeFatal_faulted hrun _, fun k pressed hk => ?_,
      fun px py hx hy => ?_⟩
    · rw [perform, stepOperation, hstep, hrun]
    · rw [perform_key_inDomain hk, beforeFatal_faulted hrun]
    · rw [perform_pixel_inDomain ⟨px, hx⟩ ⟨py, hy⟩, beforeFatal_faulted hrun]

/-- Settles O51: the program is one block of bytes at 512 (`read_writeAll_entry`, `read_writeAll_outside`), and LOAD
writes memory alone. -/
theorem loadCopiesTheProgram : Obligations.LoadCopiesTheProgram := by
  intro s bytes hs hm hlen
  have hfit : 512 + bytes.length ≤ 4096 := by omega
  have hdone := perform_load hs bytes
  rw [loadProgram_fits hlen] at hdone
  exact ⟨_, hdone, fun k hk => read_writeAll_entry hfit hm (List.getElem?_eq_getElem hk),
    fun addr => read_writeAll_outside hfit hm, rfl, fun _ _ => rfl, ⟨rfl, rfl⟩, ⟨rfl, rfl, rfl⟩, fun _ _ => rfl,
    ⟨fun _ => rfl, rfl, rfl, rfl⟩, rfl⟩

/-- `n` ticks in a row: each timer is `n` lower, and tick `k` finds ST above 0 exactly if it began above `k`. -/
theorem performAll_ticks : ∀ (n : Nat) (s : State), s.isFaulted = false → ∃ d b : Byte,
    performAll (List.replicate n .tick) s =
      .ok ((s.setDt d).setSt b, (List.range n).map fun k => .tone (decide (k < s.st.toNat))) ∧
    d.toNat = s.dt.toNat - n ∧ b.toNat = s.st.toNat - n
  | 0, s, _ => ⟨s.dt, s.st, rfl, rfl, rfl⟩
  | n + 1, s, hs => by
    obtain ⟨d, b, hall, hd, hb⟩ := performAll_ticks n ((s.setDt (tickDown s.dt)).setSt (tickDown s.st)) hs
    refine ⟨d, b, ?_, ?_, ?_⟩
    · have hfirst : (s.st != 0) = decide (0 < s.st.toNat) := by
        rw [Bool.eq_iff_iff, bne_iff_ne, decide_eq_true_eq, ← BitVec.toNat_ne_iff_ne, Nat.pos_iff_ne_zero]
        rfl
      have hlater (k : Nat) : k < s.st.toNat - 1 ↔ k + 1 < s.st.toNat := by omega
      rw [List.replicate_succ, performAll, perform_tick hs]
      simp only [hall, hfirst, List.range_succ_eq_map, List.map_cons, List.map_map, Function.comp_def, State.setSt_st,
        tickDown_toNat, hlater, Nat.succ_eq_add_one]
      rfl
    · rw [hd, State.setSt_dt, State.setDt_dt, tickDown_toNat]
      omega
    · rw [hb, State.setSt_st, tickDown_toNat]
      omega

/-- Settles O53: the ticks write the two timers alone (`performAll_ticks`). -/
theorem ticksCountDownAndFireTones : Obligations.TicksCountDownAndFireTones := by
  intro n s hs
  obtain ⟨d, b, hall, hd, hb⟩ := performAll_ticks n s hs
  exact ⟨_, hall, hd, hb, rfl, rfl, fun _ _ => rfl, fun _ => rfl, ⟨rfl, rfl⟩, fun _ _ => rfl,
    ⟨fun _ => rfl, rfl, rfl, rfl⟩, rfl⟩

/-- What a constructed machine's memory holds: its glyphs, and the background above them. -/
theorem construct_byteAt (glyphs : Vector Byte 80) (sl shift : Bool) (addr : Nat) :
    (State.construct glyphs sl shift).byteAt addr = glyphs.toList[addr]?.getD (Memory.background addr) := by
  have hfit : 0 + glyphs.toList.length ≤ 4096 := by rw [Vector.length_toList]; decide
  exact (Memory.read_writeAll hfit Memory.nil_wf addr).trans (if_pos (Nat.zero_le addr))

/-- Storing the default glyphs lists no cell: each byte equals the background. -/
theorem writeAll_defaultGlyphs : Memory.writeAll [] 0 defaultGlyphs = [] := by decide

/-- Settles O57: memory is `construct_byteAt`; the rest is the reset state's, and the default glyphs are what its memory
reads as (`writeAll_defaultGlyphs`). -/
theorem resetValues : Obligations.ResetValues := by
  refine ⟨fun glyphs sl shift s hs => ?_, fun glyphs hglyphs => ?_⟩
  · subst hs
    refine ⟨fun k => ?_, fun addr haddr => ?_, rfl, rfl, rfl, fun x => ?_, rfl, rfl, rfl, pixelOn_blank, fun k => ?_⟩
    · rw [construct_byteAt]
      simp
    · rw [construct_byteAt, List.getElem?_eq_none (by rw [Vector.length_toList]; exact haddr), Option.getD_none,
        Memory.background_above haddr]
    · exact Vector.getElem_replicate x.isLt
    · exact Vector.getElem_replicate k.isLt
  · rw [State.construct, hglyphs, writeAll_defaultGlyphs]
    rfl

/-- What the host sees of an operation that has a meaning only before a fatal condition. -/
theorem replyOf_beforeFatal (s : State) (result : State × Reply) :
    replyOf (beforeFatal s result) = if s.isFaulted then .error .operationAfterFatal else .ok result.2 := by
  cases hs : s.isFaulted with
  | false => rw [beforeFatal_notFaulted hs]; rfl
  | true =>
    obtain ⟨c, hrun⟩ := faulted_of_isFaulted hs
    rw [beforeFatal_faulted hrun]
    rfl

/-- STEP replies `Ok` or a fatal cause. -/
theorem replyOf_step (s : State) :
    replyOf (perform .step s) = .ok .ok ∨ ∃ c, replyOf (perform .step s) = .ok (.fatal c) := by
  rw [perform, stepOperation]
  cases hstep : step s with
  | next t => exact .inl rfl
  | refused r => exact absurd hstep (noStepIsRefused s r)
  | fault c =>
    refine .inr ⟨c, ?_⟩
    cases s.run <;> rfl

/-- Settles O59: STEP by `replyOf_step`; the reply of every other operation is a function of its arguments, of being
faulted (`replyOf_beforeFatal`), and for TICK of ST being 0, for PIXEL of a pixel. -/
theorem hostObservesOnlyItsPorts : Obligations.HostObservesOnlyItsPorts := by
  refine ⟨replyOf_step, fun op s t hne hfaulted hst hdisplay => ?_, fun s t => readBackKeys_congr⟩
  cases op with
  | step => exact absurd rfl hne
  | reset glyphs sl shift => rfl
  | load bytes =>
    have hreply : (loadProgram bytes t).2 = (loadProgram bytes s).2 := by
      unfold loadProgram
      split <;> rfl
    rw [perform, perform, replyOf_beforeFatal, replyOf_beforeFatal, hfaulted, hreply]
  | tick =>
    have hreply : (tickTimers t).2 = (tickTimers s).2 := by
      have hzero : (t.st != 0) = (s.st != 0) := by rw [Bool.eq_iff_iff, bne_iff_ne, bne_iff_ne, Ne, Ne, hst]
      rw [tickTimers, tickTimers, hzero]
    rw [perform, perform, replyOf_beforeFatal, replyOf_beforeFatal, hfaulted, hreply]
  | key n pressed =>
    by_cases hn : n < 16
    · rw [perform_key_inDomain hn, perform_key_inDomain hn, replyOf_beforeFatal, replyOf_beforeFatal, hfaulted]
      rfl
    · rw [perform_key_outsideDomain (Nat.le_of_not_lt hn), perform_key_outsideDomain (Nat.le_of_not_lt hn)]
  | pixel x y =>
    by_cases hxy : x < 64 ∧ y < 32
    · have hreply : (getPixel ⟨x, hxy.1⟩ ⟨y, hxy.2⟩ t).2 = (getPixel ⟨x, hxy.1⟩ ⟨y, hxy.2⟩ s).2 := by
        rw [getPixel, getPixel, hdisplay]
      rw [perform_pixel_inDomain ⟨x, hxy.1⟩ ⟨y, hxy.2⟩, perform_pixel_inDomain ⟨x, hxy.1⟩ ⟨y, hxy.2⟩,
        replyOf_beforeFatal, replyOf_beforeFatal, hfaulted, hreply]
    · rw [perform_pixel_outsideDomain hxy, perform_pixel_outsideDomain hxy]

end Sys2Proof.Proofs
